-- ==== Sys2Proof/Word.lean ====
section
/-! DEFINITION. The machine's words: bytes, 32-bit words, the 16-byte block and the 256-entry byte table
(00_scope.md R6, R7; 10_state.md R36). -/

namespace Sys2Proof

/-- A byte: a field element, a block byte or a table entry (R8, R36). -/
abbrev Byte := BitVec 8

/-- A 32-bit register or command word (R20, R60). -/
abbrev Word := BitVec 32

/-- The 16-byte cipher block, byte 0 first (R6, R9). -/
abbrev Block := Vector Byte 16

/-- 256 byte entries, indexed by a byte (R6, R29). -/
abbrev ByteTable := Vector Byte 256

/-- The vector whose entry `i` is `f i`. -/
def tabulate {α : Type} {n : Nat} (f : Fin n → α) : Vector α n :=
  ⟨((List.finRange n).map f).toArray, by simp⟩

end Sys2Proof
end

