-- ==== Sys2Proof/Config.lean ====
section
/-! DEFINITION. What an implementation fixes (00_scope.md R6, the OPEN parameters) and the free values: constants without
a body, so that nothing can be proved of what they are. -/

namespace Sys2Proof

/-- One less than the synthesis parameter P1, which is 1..255 (00_scope.md R6). -/
opaque Config.p1Pred : Fin 255

/-- One less than the synthesis parameter P2, which is 1..255 (00_scope.md R6). -/
opaque Config.p2Pred : Fin 255

/-- The round count of permutation layer "first", OPEN in 1..255 (00_scope.md R6, 92_eei_decisions.md D18). -/
def Config.p1 : Byte := BitVec.ofNat 8 (Config.p1Pred.val + 1)

/-- The round count of permutation layer "second", OPEN in 1..255 (00_scope.md R6, 92_eei_decisions.md D18). -/
def Config.p2 : Byte := BitVec.ofNat 8 (Config.p2Pred.val + 1)

/-- The number of 64-byte windows below the block's own. -/
opaque Config.windowIndex : Nat

/-- The bus address of the register window, OPEN, a multiple of 64 (00_scope.md R6, 20_memory.md R41). -/
def Config.base : Nat := 64 * Config.windowIndex

/-- FREE VALUE: what entry `index` of slot `slot` holds in `State.reset`; `inverse` tells TINV from T (10_state.md R35,
93_implementation_defined.md I1; assumption log 5). -/
opaque Config.powerUpByte (slot : Nat) (inverse : Bool) (index : Nat) : Byte

/-- FREE VALUE: what an entry holds after a later reset, given what it held before; `draw` numbers the resets (70_reset_and_hazards.md
R180, R181, 93_implementation_defined.md I1, I6; assumption log 6). -/
opaque Config.resetByte (draw slot : Nat) (inverse : Bool) (index : Nat) (old : Byte) : Byte

/-- FREE VALUE: STATUS.ERR in a block that has lost power; `draw` numbers the draws (60_exceptions.md R174; assumption log 8). -/
opaque Config.lostErr (draw : Nat) : BitVec 4

/-- FREE VALUE: ERRCMD in a block that has lost power (60_exceptions.md R174; assumption log 8). -/
opaque Config.lostErrcmd (draw : Nat) : Word

/-- FREE VALUE: RES in a block that has lost power (60_exceptions.md R174; assumption log 8). -/
opaque Config.lostRes (draw : Nat) : Byte

/-- FREE VALUE: byte `index` of BLK in a block that has lost power (60_exceptions.md R174; assumption log 8). -/
opaque Config.lostBlkByte (draw index : Nat) : Byte

/-- FREE VALUE: VALID of slot `slot` in a block that has lost power (60_exceptions.md R174; assumption log 8). -/
opaque Config.lostValid (draw slot : Nat) : Bool

/-- FREE VALUE: a table entry in a block that has lost power; `inverse` tells TINV from T (60_exceptions.md R174; assumption log 8). -/
opaque Config.lostEntry (draw slot : Nat) (inverse : Bool) (index : Nat) : Byte

end Sys2Proof
end

