-- ==== Sys2Proof/Syntax.lean ====
section
/-! DEFINITION. The commands (30_encoding.md R60 to R63), their fields, the register names (10_state.md R20)
and the lines of the host's assembler (30_encoding.md R66, R68). -/

namespace Sys2Proof

/-- A table slot (10_state.md R29): SL = 0, 1 or 2. SL = 3 names no slot (30_encoding.md R64). -/
inductive Slot where
  | s0 | s1 | s2
  deriving DecidableEq, Repr

/-- The commands of 30_encoding.md R63, one constructor per row, with the operands the row uses. -/
inductive Instr where
  /-- 45_control.md R150 -/
  | nop
  /-- 45_control.md R151 -/
  | clrerr
  /-- 40_field.md R84 -/
  | gadd (a b : Byte)
  /-- 40_field.md R85 -/
  | gmul (a b : Byte)
  /-- 40_field.md R86 -/
  | ginv (a : Byte)
  /-- 40_field.md R87 -/
  | gdbl (a : Byte)
  /-- 42_substitution.md R112 -/
  | sub (k : Slot)
  /-- 42_substitution.md R113 -/
  | isub (k : Slot)
  /-- 43_mixing.md R130 -/
  | permf
  /-- 43_mixing.md R131 -/
  | perms
  /-- 43_mixing.md R132 -/
  | ipermf
  /-- 43_mixing.md R133 -/
  | iperms
  /-- 44_pipeline.md R141 -/
  | enc (k : Slot)
  /-- 44_pipeline.md R142 -/
  | dec (k : Slot)
  /-- 41_tables.md R92: index `a`, value `b` -/
  | twr (k : Slot) (a b : Byte)
  /-- 41_tables.md R93: index `a` -/
  | trd (k : Slot) (a : Byte)
  /-- 41_tables.md R94: index `a` -/
  | tird (k : Slot) (a : Byte)
  /-- 41_tables.md R95: indices `i`, `j` -/
  | tswap (k : Slot) (i j : Byte)
  /-- 41_tables.md R96 -/
  | tident (k : Slot)
  /-- 41_tables.md R97 -/
  | tcommit (k : Slot)
  deriving DecidableEq, Repr

/-- The mnemonics of 30_encoding.md R63. -/
inductive Mnemonic where
  | nop | clrerr
  | gadd | gmul | ginv | gdbl
  | sub | isub
  | permf | perms | ipermf | iperms
  | enc | dec
  | twr | trd | tird | tswap | tident | tcommit
  deriving DecidableEq, Repr

/-- The fields of format F1 (30_encoding.md R60). -/
structure CommandFields where
  /-- bits 7:0 -/
  opc : Byte
  /-- bits 15:8 -/
  fa : Byte
  /-- bits 23:16 -/
  fb : Byte
  /-- bits 25:24 -/
  sl : BitVec 2
  /-- bits 31:26 -/
  rsv : BitVec 6
  deriving DecidableEq, Repr

/-- Which of FA, FB and SL a command uses (30_encoding.md R63, column "fields used"). -/
structure FieldUse where
  fa : Bool
  fb : Bool
  sl : Bool
  deriving DecidableEq, Repr

/-- Why a word is no command (60_exceptions.md R160, code 1). -/
inductive IllegalCause where
  /-- an OPC that R63 does not list -/
  | unknownOpc
  /-- RSV is not 0 -/
  | reservedBits
  /-- a field the command does not use is not 0 -/
  | unusedField
  /-- SL = 3 in a command that uses SL -/
  | slotThree
  deriving DecidableEq, Repr

/-- The named registers of the window (10_state.md R20); `blk k` is BLKk. -/
inductive Reg where
  | id | cfg | cmd | status | errcmd | res
  | blk (k : Fin 4)
  deriving DecidableEq, Repr

/-- An operand as the assembler reads it (30_encoding.md R66): a byte literal or a slot name, not yet range checked. -/
inductive AsmArg where
  | byte (n : Nat)
  | slot (n : Nat)
  deriving DecidableEq, Repr

/-- A line of a program (30_encoding.md R66). -/
inductive AsmLine where
  /-- a command line: mnemonic and operands -/
  | command (m : Mnemonic) (args : List AsmArg)
  /-- `wr REG, v` -/
  | wr (r : Reg) (v : Word)
  /-- `rd REG` -/
  | rd (r : Reg)
  deriving DecidableEq, Repr

/-- The pseudo-instructions of 30_encoding.md R68. -/
inductive Pseudo where
  /-- the 16 bytes b0 .. b15 -/
  | ldblk (b : Block)
  | stblk
  | gsq (a : Nat)
  | gxtime (a : Nat)
  /-- `resByte` is the byte `$RES[7:0]` that the host read on the expansion's second line -/
  | gdiv (a b : Nat) (resByte : Byte)
  /-- the 256 entries t0 .. t255 -/
  | tload (k : Nat) (t : ByteTable)
  /-- the stream bytes, `r[j]` being r_(255-j): r255 first, r1 last -/
  | tshuffle (k : Nat) (r : Vector Byte 255)
  | chkerr
  deriving DecidableEq, Repr

end Sys2Proof
end

