-- ==== Sys2Proof/Machine/State.lean ====
section
/-! DEFINITION. The machine's state (10_state.md), the host's inputs (20_memory.md R40, 70_reset_and_hazards.md R180), and the
reasons a step can stop. -/

namespace Sys2Proof.Machine

/-- A table slot (10_state.md R29). -/
structure SlotState where
  /-- T[s]: the forward permutation table -/
  t : ByteTable
  /-- TINV[s]: the inverse table -/
  tinv : ByteTable
  /-- VALID[s]: the slot is committed -/
  valid : Bool
  deriving DecidableEq, Repr

/-- Whether the block accepts bus accesses (70_reset_and_hazards.md R180, 60_exceptions.md R174). -/
inductive Phase where
  /-- reset is released: the block performs the accesses it receives -/
  | running
  /-- the reset input is asserted: no access may be issued -/
  | inReset
  /-- power was removed while reset was released, and reset has not been asserted since -/
  | powerLost
  deriving DecidableEq, Repr

/-- The width of a bus read (20_memory.md R42). -/
inductive Width where
  | w8 | w16 | w32 | w64
  deriving DecidableEq, Repr

/-- The data of a bus write, with its width (20_memory.md R42). -/
inductive WriteData where
  | b8 (v : BitVec 8)
  | b16 (v : BitVec 16)
  | b32 (v : Word)
  | b64 (v : BitVec 64)
  deriving DecidableEq, Repr

/-- A bus transaction of the host, at bus address BASE + off (20_memory.md R40, R41). -/
inductive Access where
  | read (off : Int) (width : Width)
  | write (off : Int) (data : WriteData)
  deriving DecidableEq, Repr

/-- What the outside does to the block. -/
inductive Event where
  /-- the host issues a bus access (20_memory.md R40) -/
  | access (a : Access)
  /-- the reset input is asserted (true) or released (false) (70_reset_and_hazards.md R180) -/
  | resetLine (asserted : Bool)
  /-- power is removed and comes back (60_exceptions.md R174) -/
  | powerLoss
  deriving DecidableEq, Repr

/-- The error codes a command raises (60_exceptions.md R160). -/
inductive ErrCode where
  | illegalCmd | invZero | tableInvalid | notBijective
  deriving DecidableEq, Repr

/-- The block's state, and with it the outside's pending events and the data the host has read. ID, CMD, the reserved offsets
and the constant fields of CFG and STATUS are not storage (10_state.md R20 to R28). -/
structure State where
  /-- CFG[7:0], hardwired at synthesis (10_state.md R22) -/
  p1 : Byte
  /-- CFG[15:8], hardwired at synthesis (10_state.md R22) -/
  p2 : Byte
  /-- STATUS.ERR (10_state.md R24) -/
  err : BitVec 4
  /-- ERRCMD (10_state.md R25) -/
  errcmd : Word
  /-- RES bits 7:0; bits 31:8 always read 0 (10_state.md R26) -/
  res : Byte
  /-- BLK, the 16 bytes of BLK0..BLK3 (10_state.md R27) -/
  blk : Block
  /-- the three slots, T, TINV and VALID (10_state.md R29) -/
  slots : Vector SlotState 3
  /-- the reset input and power (70_reset_and_hazards.md R180, 60_exceptions.md R174) -/
  phase : Phase
  /-- the MODEL's own: how many resets and losses of power have drawn free values (assumption log 6, 8) -/
  draws : Nat
  /-- the outside's events still to come, oldest first (10_state.md R31: host state; assumption log 1) -/
  events : List Event
  /-- the data returned to the host's reads, latest first (30_encoding.md R66; assumption log 9) -/
  answers : List Word
  deriving DecidableEq, Repr

/-- Why the machine stops with a fault. -/
inductive Fault where
  /-- A bus access inside the window of a width other than 32 bits, or misaligned: the block refuses it with a bus error and
  changes nothing (20_memory.md R42, 60_exceptions.md R161); the run faults (70_reset_and_hazards.md R187). Raised by a bus access,
  never by a command. Safe: the spec itself makes it a fault. -/
  | busError
  deriving DecidableEq, Repr

/-- Why the model gives an event no meaning. -/
inductive Refusal where
  /-- An instruction whose meaning is not written. No arm of `exec` raises it. Safe. -/
  | notModelled (mnemonic : String)
  /-- A bus access outside the window, which the block does not decode: "what it reaches is the platform's business"
  (20_memory.md R41). Raised by such an access. Safe. -/
  | outsideWindow
  /-- A bus access while reset is asserted, which the platform must not issue (70_reset_and_hazards.md R180,
  93_implementation_defined.md I7). Raised by such an access. Safe. -/
  | accessDuringReset
  /-- A bus access after a loss of power and before a reset: "all state is lost and the block must be reset [...] before use"
  (60_exceptions.md R174). The lost VALID and ERR may be any values, and an access performed on them would show what 10_state.md R30 and
  60_exceptions.md R160 say no access ever shows. Raised by such an access. Safe. -/
  | accessBeforeReset
  deriving DecidableEq, Repr

/-- The machine right after reset (70_reset_and_hazards.md R180, 10_state.md R35): every register at the value the spec states, P1 and P2
the synthesis parameters, the table contents free values, and nothing pending from the host. -/
def State.reset : State where
  p1 := Config.p1
  p2 := Config.p2
  err := 0
  errcmd := 0
  res := 0
  blk := tabulate fun _ => 0
  slots := tabulate fun k =>
    { t := tabulate fun x => Config.powerUpByte k.val false x.val
      tinv := tabulate fun x => Config.powerUpByte k.val true x.val
      valid := false }
  phase := .running
  draws := 0
  events := []
  answers := []

end Sys2Proof.Machine
end

