-- ==== Sys2Proof/Machine/Flags.lean ====
section
/-! DEFINITION. The status a command produces: the error codes and the STATUS word (10_state.md R24, R32, 60_exceptions.md R160). The block
has no condition codes and no arithmetic flags (R32). -/

namespace Sys2Proof.Machine

/-- The value of STATUS.ERR for each error (60_exceptions.md R160). -/
def ErrCode.code : ErrCode → BitVec 4
  | .illegalCmd => 1
  | .invZero => 2
  | .tableInvalid => 3
  | .notBijective => 4

/-- The STATUS word: ERR in bits 3:0, VALID0..2 in bits 8..10, every other bit 0 (10_state.md R24). -/
def statusWord (s : State) : Word :=
  0#21 ++ BitVec.ofBool s.slots[2].valid ++ BitVec.ofBool s.slots[1].valid ++ BitVec.ofBool s.slots[0].valid
    ++ 0#4 ++ s.err

end Sys2Proof.Machine
end

