-- ==== Sys2Proof/Machine/Operands.lean ====
section
/-! DEFINITION. Where commands and bus accesses take their operands: a table slot by SL, an entry of a table by a byte, and the
words of BLK (10_state.md R27, R29; 30_encoding.md R62). FA and FB are immediate bytes of the command itself. -/

namespace Sys2Proof.Machine

/-- The number of a slot. -/
def slotIndex : Slot → Fin 3
  | .s0 => 0
  | .s1 => 1
  | .s2 => 2

/-- The state of the slot an operand names (10_state.md R29). -/
def State.slot (s : State) (k : Slot) : SlotState :=
  s.slots[slotIndex k]

/-- Entry `x` of a table. -/
def lookup (t : ByteTable) (x : Byte) : Byte :=
  t[x.toNat]'(x.isLt)

/-- A table with `v` in entry `x`. -/
def writeEntry (t : ByteTable) (x v : Byte) : ByteTable :=
  t.set x.toNat v x.isLt

/-- The word BLKk: block bytes 4k..4k+3, byte 4k in bits 7:0 (10_state.md R27). -/
def blkWord (b : Block) (k : Fin 4) : Word :=
  b[4 * k.val + 3] ++ b[4 * k.val + 2] ++ b[4 * k.val + 1] ++ b[4 * k.val]

/-- The block with BLKk replaced by `v` (10_state.md R27). -/
def setBlkWord (b : Block) (k : Fin 4) (v : Word) : Block :=
  tabulate fun i => if i.val / 4 = k.val then v.extractLsb' (8 * (i.val % 4)) 8 else b[i]

end Sys2Proof.Machine
end

