-- ==== Sys2Proof/Machine/Ops.lean ====
section
/-! DEFINITION. The named operations the meanings share: writing RES, BLK and a slot, raising an error and clearing the report,
and the check for a committed slot. -/

namespace Sys2Proof.Machine

/-- RES <- v, with bits 31:8 zero (10_state.md R26). -/
def State.setRes (s : State) (v : Byte) : State :=
  { s with res := v }

/-- BLK <- b, all 16 bytes at once (10_state.md R27). -/
def State.setBlk (s : State) (b : Block) : State :=
  { s with blk := b }

/-- The state of slot `k` replaced; the other slots stay (41_tables.md R90). -/
def State.setSlot (s : State) (k : Slot) (c : SlotState) : State :=
  { s with slots := s.slots.set (slotIndex k).val c (slotIndex k).isLt }

/-- `raise Error(code)` in the command word `cmd` (60_exceptions.md R162): the first error since CLRERR or reset is kept, a later one is
not recorded, and nothing else changes. The block has no other trap: nothing is saved, no mode changes, nothing is jumped to
(R166). -/
def raiseError (code : ErrCode) (cmd : Word) (s : State) : State :=
  if s.err = 0 then { s with err := code.code, errcmd := cmd } else s

/-- The error report cleared and re-armed (45_control.md R151); the block has no other return from an error (60_exceptions.md R167). -/
def clearError (s : State) : State :=
  { s with err := 0, errcmd := 0 }

/-- A command that needs a committed slot: TABLE_INVALID when VALID[k] = 0, before any state change (60_exceptions.md R160,
R162, R164); else `f` of the slot. -/
def withCommitted (k : Slot) (cmd : Word) (s : State) (f : SlotState → State) : State :=
  if (s.slot k).valid then f (s.slot k) else raiseError .tableInvalid cmd s

end Sys2Proof.Machine
end

