-- ==== Sys2Proof/Machine/Control.lean ====
section
/-! DEFINITION. The control commands NOP, CLRERR (45_control.md). -/

namespace Sys2Proof.Machine

/-- NOP (45_control.md R150): nothing. -/
def execNop (s : State) : Host.Outcome State Fault Refusal :=
  .next s

/-- CLRERR (45_control.md R151). -/
def execClrerr (s : State) : Host.Outcome State Fault Refusal :=
  .next (clearError s)

end Sys2Proof.Machine
end

