-- ==== Sys2Proof/WellFormed.lean ====
section
/-! DEFINITION. Which 32-bit words are commands, by the match and mask columns of 30_encoding.md R63.
It is written from those columns alone; the decoder (Decode.lean) is written from the fields of R60 and the
checks of R64, and the two are stated to agree. A term of `Instr` needs no check of its own: its operands are bytes
and a `Slot` has no fourth value. -/

namespace Sys2Proof

/-- A row of 30_encoding.md R63. -/
structure CommandRow where
  mnemonic : Mnemonic
  pattern : Word
  mask : Word
  /-- the row uses SL, and so also requires w[25:24] to differ from 3 -/
  usesSlot : Bool
  deriving DecidableEq, Repr

/-- The rows of 30_encoding.md R63: match (here `pattern`) and mask. -/
def commandRows : List CommandRow :=
  [ ⟨.nop,     0x00000000, 0xFFFFFFFF, false⟩,
    ⟨.clrerr,  0x00000001, 0xFFFFFFFF, false⟩,
    ⟨.gadd,    0x00000008, 0xFF0000FF, false⟩,
    ⟨.gmul,    0x00000009, 0xFF0000FF, false⟩,
    ⟨.ginv,    0x0000000A, 0xFFFF00FF, false⟩,
    ⟨.gdbl,    0x0000000B, 0xFFFF00FF, false⟩,
    ⟨.sub,     0x00000010, 0xFCFFFFFF, true⟩,
    ⟨.isub,    0x00000011, 0xFCFFFFFF, true⟩,
    ⟨.permf,   0x00000012, 0xFFFFFFFF, false⟩,
    ⟨.perms,   0x00000013, 0xFFFFFFFF, false⟩,
    ⟨.ipermf,  0x00000014, 0xFFFFFFFF, false⟩,
    ⟨.iperms,  0x00000015, 0xFFFFFFFF, false⟩,
    ⟨.enc,     0x00000018, 0xFCFFFFFF, true⟩,
    ⟨.dec,     0x00000019, 0xFCFFFFFF, true⟩,
    ⟨.twr,     0x00000020, 0xFC0000FF, true⟩,
    ⟨.trd,     0x00000021, 0xFCFF00FF, true⟩,
    ⟨.tird,    0x00000022, 0xFCFF00FF, true⟩,
    ⟨.tswap,   0x00000023, 0xFC0000FF, true⟩,
    ⟨.tident,  0x00000024, 0xFCFFFFFF, true⟩,
    ⟨.tcommit, 0x00000025, 0xFCFFFFFF, true⟩ ]

/-- `w` selects `r`: `(w & mask) == match`, and `w[25:24] != 3` when the row uses SL (R63). -/
def CommandRow.selects (r : CommandRow) (w : Word) : Bool :=
  (w &&& r.mask) == r.pattern && (!r.usesSlot || w.extractLsb' 24 2 != 3#2)

/-- A legal command word: some row is selected (R64). -/
def wellFormedWord (w : Word) : Bool :=
  commandRows.any fun r => r.selects w

end Sys2Proof
end

