-- ==== Sys2Proof/Decode.lean ====
section
/-! DEFINITION. The decoder, from the fields of 30_encoding.md R60 and the checks of R64, and after it the encoder (R67). -/

namespace Sys2Proof

/-- The operation code of each mnemonic (30_encoding.md R63). -/
def Mnemonic.opc : Mnemonic → Byte
  | .nop => 0x00
  | .clrerr => 0x01
  | .gadd => 0x08
  | .gmul => 0x09
  | .ginv => 0x0A
  | .gdbl => 0x0B
  | .sub => 0x10
  | .isub => 0x11
  | .permf => 0x12
  | .perms => 0x13
  | .ipermf => 0x14
  | .iperms => 0x15
  | .enc => 0x18
  | .dec => 0x19
  | .twr => 0x20
  | .trd => 0x21
  | .tird => 0x22
  | .tswap => 0x23
  | .tident => 0x24
  | .tcommit => 0x25

/-- The fields each command uses (30_encoding.md R63). -/
def Mnemonic.uses : Mnemonic → FieldUse
  | .nop | .clrerr | .permf | .perms | .ipermf | .iperms => ⟨false, false, false⟩
  | .gadd | .gmul => ⟨true, true, false⟩
  | .ginv | .gdbl => ⟨true, false, false⟩
  | .sub | .isub | .enc | .dec | .tident | .tcommit => ⟨false, false, true⟩
  | .trd | .tird => ⟨true, false, true⟩
  | .twr | .tswap => ⟨true, true, true⟩

/-- All mnemonics, in the order of 30_encoding.md R63. -/
def allMnemonics : List Mnemonic :=
  [.nop, .clrerr, .gadd, .gmul, .ginv, .gdbl, .sub, .isub, .permf, .perms, .ipermf, .iperms, .enc, .dec,
   .twr, .trd, .tird, .tswap, .tident, .tcommit]

/-- The mnemonic an operation code selects, if R63 lists it; every other value is reserved (R65). -/
def mnemonicOfOpc (c : Byte) : Option Mnemonic :=
  allMnemonics.find? fun m => m.opc == c

/-- The slot that SL names; 3 names none (30_encoding.md R62, R64). -/
def slotOfField (sl : BitVec 2) : Option Slot :=
  match sl.toNat with
  | 0 => some .s0
  | 1 => some .s1
  | 2 => some .s2
  | _ => none

/-- The value of SL that names a slot. -/
def slotField : Slot → BitVec 2
  | .s0 => 0
  | .s1 => 1
  | .s2 => 2

/-- The fields of a command word (30_encoding.md R60). -/
def fieldsOf (w : Word) : CommandFields where
  opc := w.extractLsb' 0 8
  fa := w.extractLsb' 8 8
  fb := w.extractLsb' 16 8
  sl := w.extractLsb' 24 2
  rsv := w.extractLsb' 26 6

/-- The word with the given fields (30_encoding.md R60, R67). -/
def packFields (f : CommandFields) : Word :=
  f.rsv ++ f.sl ++ f.fb ++ f.fa ++ f.opc

/-- The command of a mnemonic with operands a = FA, b = FB and the slot of SL (30_encoding.md R62). -/
def instrOf (m : Mnemonic) (a b : Byte) (k : Slot) : Instr :=
  match m with
  | .nop => .nop
  | .clrerr => .clrerr
  | .gadd => .gadd a b
  | .gmul => .gmul a b
  | .ginv => .ginv a
  | .gdbl => .gdbl a
  | .sub => .sub k
  | .isub => .isub k
  | .permf => .permf
  | .perms => .perms
  | .ipermf => .ipermf
  | .iperms => .iperms
  | .enc => .enc k
  | .dec => .dec k
  | .twr => .twr k a b
  | .trd => .trd k a
  | .tird => .tird k a
  | .tswap => .tswap k a b
  | .tident => .tident k
  | .tcommit => .tcommit k

/-- A field the command does not use is not 0 (30_encoding.md R64). -/
def unusedFieldSet (m : Mnemonic) (f : CommandFields) : Bool :=
  (!m.uses.fa && f.fa != 0) || (!m.uses.fb && f.fb != 0) || (!m.uses.sl && f.sl != 0)

/-- Decode of 30_encoding.md R64 on the fields, saying why a word is rejected. -/
def decodeFields (f : CommandFields) : Except IllegalCause Instr :=
  match mnemonicOfOpc f.opc with
  | none => .error .unknownOpc
  | some m =>
    if f.rsv != 0 then .error .reservedBits
    else if unusedFieldSet m f then .error .unusedField
    else match slotOfField f.sl with
      | none => .error .slotThree
      | some k => .ok (instrOf m f.fa f.fb k)

/-- Decode of a word, or the cause of ILLEGAL_CMD (30_encoding.md R64, 60_exceptions.md R160). -/
def decodeOrCause (w : Word) : Except IllegalCause Instr :=
  decodeFields (fieldsOf w)

/-- The command a word stands for; none for every word that raises ILLEGAL_CMD (30_encoding.md R64, R65). -/
def decode (w : Word) : Option Instr :=
  match decodeOrCause w with
  | .ok i => some i
  | .error _ => none

/-- The instruction read from the low `nbits` bits of `w` (the bits above are 0). A command word is one 32-bit value and has
no byte order (20_memory.md R44, 30_encoding.md R61). -/
def decodeTableWord (nbits w : Nat) : Option Instr :=
  decode (BitVec.ofNat 32 (w % 2 ^ nbits))

/-- The assembler's `enc(op, a, b, s)` (30_encoding.md R67), as fields. -/
def encFields (m : Mnemonic) (a b : Byte := 0) (k : Slot := .s0) : CommandFields where
  opc := m.opc
  fa := a
  fb := b
  sl := slotField k
  rsv := 0

/-- The fields of each command: the ones it uses, and 0 in the others (30_encoding.md R63, R67). -/
def Instr.fields : Instr → CommandFields
  | .nop => encFields .nop
  | .clrerr => encFields .clrerr
  | .gadd a b => encFields .gadd a b
  | .gmul a b => encFields .gmul a b
  | .ginv a => encFields .ginv a
  | .gdbl a => encFields .gdbl a
  | .sub k => encFields .sub (k := k)
  | .isub k => encFields .isub (k := k)
  | .permf => encFields .permf
  | .perms => encFields .perms
  | .ipermf => encFields .ipermf
  | .iperms => encFields .iperms
  | .enc k => encFields .enc (k := k)
  | .dec k => encFields .dec (k := k)
  | .twr k a b => encFields .twr a b k
  | .trd k a => encFields .trd a (k := k)
  | .tird k a => encFields .tird a (k := k)
  | .tswap k i j => encFields .tswap i j k
  | .tident k => encFields .tident (k := k)
  | .tcommit k => encFields .tcommit (k := k)

/-- The command word of a command (30_encoding.md R67). -/
def encode (i : Instr) : Word :=
  packFields i.fields

end Sys2Proof
end

