-- ==== Sys2Proof/Machine/Field.lean ====
section
/-! DEFINITION. The field GF(2^8) and the field commands GADD, GMUL, GINV, GDBL (40_field.md). -/

namespace Sys2Proof.Machine

/-- `dbl a`, multiplication by x (40_field.md R81). -/
def dbl (a : Byte) : Byte :=
  if a.msb then (a <<< 1) ^^^ 0x1B#8 else a <<< 1

/-- The loop of gf_mul from bit `i` on, with `n` bits left, the multiplicand `a` doubled so far and the sum `p`
(40_field.md R80). -/
def gfMulLoop (b : Byte) : (n i : Nat) → (a p : Byte) → Byte
  | 0, _, _, p => p
  | n + 1, i, a, p => gfMulLoop b n (i + 1) (dbl a) (if b.getLsbD i then p ^^^ a else p)

/-- Field multiplication, bit-serial (40_field.md R80). -/
def gfMul (a b : Byte) : Byte :=
  gfMulLoop b 8 0 a 0

/-- The product of `acc` with `a^2`, `a^4`, ..., `a^(2^n)`. -/
def gfSquares : (n : Nat) → (a acc : Byte) → Byte
  | 0, _, acc => acc
  | n + 1, a, acc => gfSquares n (gfMul a a) (gfMul acc (gfMul a a))

/-- The field inverse: none for 0, which has no inverse, else a^254, as the product of a^2, a^4, ..., a^128
(40_field.md R82; the exponents sum to 254). -/
def gfInv (a : Byte) : Option Byte :=
  if a = 0 then none else some (gfSquares 7 a 1)

/-- GADD (40_field.md R84). -/
def execGadd (a b : Byte) (s : State) : Host.Outcome State Fault Refusal :=
  .next (s.setRes (a ^^^ b))

/-- GMUL (40_field.md R85). -/
def execGmul (a b : Byte) (s : State) : Host.Outcome State Fault Refusal :=
  .next (s.setRes (gfMul a b))

/-- GINV (40_field.md R86): INV_ZERO for a = 0. -/
def execGinv (a : Byte) (s : State) : Host.Outcome State Fault Refusal :=
  .next (match gfInv a with
    | some r => s.setRes r
    | none => raiseError .invZero (encode (.ginv a)) s)

/-- GDBL (40_field.md R87). -/
def execGdbl (a : Byte) (s : State) : Host.Outcome State Fault Refusal :=
  .next (s.setRes (dbl a))

end Sys2Proof.Machine
end

