-- ==== Sys2Proof/Machine/Substitution.lean ====
section
/-! DEFINITION. The substitution layer and its commands SUB, ISUB (42_substitution.md). -/

namespace Sys2Proof.Machine

/-- Every block byte through a table, each lane on its own (42_substitution.md R110, R114). -/
def substitute (t : ByteTable) (b : Block) : Block :=
  b.map (lookup t)

/-- SubLayer of a committed slot (42_substitution.md R110). -/
def subLayer (c : SlotState) (b : Block) : Block :=
  substitute c.t b

/-- InvSubLayer of a committed slot (42_substitution.md R111). -/
def invSubLayer (c : SlotState) (b : Block) : Block :=
  substitute c.tinv b

/-- SUB (42_substitution.md R112). -/
def execSub (k : Slot) (s : State) : Host.Outcome State Fault Refusal :=
  .next (withCommitted k (encode (.sub k)) s fun c => s.setBlk (subLayer c s.blk))

/-- ISUB (42_substitution.md R113). -/
def execIsub (k : Slot) (s : State) : Host.Outcome State Fault Refusal :=
  .next (withCommitted k (encode (.isub k)) s fun c => s.setBlk (invSubLayer c s.blk))

end Sys2Proof.Machine
end

