-- ==== Sys2Proof/Machine/Mixing.lean ====
section
/-! DEFINITION. The mixing permutation stage: the AES round under a fixed public key, its inverse, the four layers, and the commands
PERMF, PERMS, IPERMF, IPERMS (43_mixing.md). -/

namespace Sys2Proof.Machine

/-- The S-box, entry 16*hi + lo, row by row (43_mixing.md R121). -/
def sboxRows : List (List Byte) :=
  [ [0x63, 0x7C, 0x77, 0x7B, 0xF2, 0x6B, 0x6F, 0xC5, 0x30, 0x01, 0x67, 0x2B, 0xFE, 0xD7, 0xAB, 0x76],
    [0xCA, 0x82, 0xC9, 0x7D, 0xFA, 0x59, 0x47, 0xF0, 0xAD, 0xD4, 0xA2, 0xAF, 0x9C, 0xA4, 0x72, 0xC0],
    [0xB7, 0xFD, 0x93, 0x26, 0x36, 0x3F, 0xF7, 0xCC, 0x34, 0xA5, 0xE5, 0xF1, 0x71, 0xD8, 0x31, 0x15],
    [0x04, 0xC7, 0x23, 0xC3, 0x18, 0x96, 0x05, 0x9A, 0x07, 0x12, 0x80, 0xE2, 0xEB, 0x27, 0xB2, 0x75],
    [0x09, 0x83, 0x2C, 0x1A, 0x1B, 0x6E, 0x5A, 0xA0, 0x52, 0x3B, 0xD6, 0xB3, 0x29, 0xE3, 0x2F, 0x84],
    [0x53, 0xD1, 0x00, 0xED, 0x20, 0xFC, 0xB1, 0x5B, 0x6A, 0xCB, 0xBE, 0x39, 0x4A, 0x4C, 0x58, 0xCF],
    [0xD0, 0xEF, 0xAA, 0xFB, 0x43, 0x4D, 0x33, 0x85, 0x45, 0xF9, 0x02, 0x7F, 0x50, 0x3C, 0x9F, 0xA8],
    [0x51, 0xA3, 0x40, 0x8F, 0x92, 0x9D, 0x38, 0xF5, 0xBC, 0xB6, 0xDA, 0x21, 0x10, 0xFF, 0xF3, 0xD2],
    [0xCD, 0x0C, 0x13, 0xEC, 0x5F, 0x97, 0x44, 0x17, 0xC4, 0xA7, 0x7E, 0x3D, 0x64, 0x5D, 0x19, 0x73],
    [0x60, 0x81, 0x4F, 0xDC, 0x22, 0x2A, 0x90, 0x88, 0x46, 0xEE, 0xB8, 0x14, 0xDE, 0x5E, 0x0B, 0xDB],
    [0xE0, 0x32, 0x3A, 0x0A, 0x49, 0x06, 0x24, 0x5C, 0xC2, 0xD3, 0xAC, 0x62, 0x91, 0x95, 0xE4, 0x79],
    [0xE7, 0xC8, 0x37, 0x6D, 0x8D, 0xD5, 0x4E, 0xA9, 0x6C, 0x56, 0xF4, 0xEA, 0x65, 0x7A, 0xAE, 0x08],
    [0xBA, 0x78, 0x25, 0x2E, 0x1C, 0xA6, 0xB4, 0xC6, 0xE8, 0xDD, 0x74, 0x1F, 0x4B, 0xBD, 0x8B, 0x8A],
    [0x70, 0x3E, 0xB5, 0x66, 0x48, 0x03, 0xF6, 0x0E, 0x61, 0x35, 0x57, 0xB9, 0x86, 0xC1, 0x1D, 0x9E],
    [0xE1, 0xF8, 0x98, 0x11, 0x69, 0xD9, 0x8E, 0x94, 0x9B, 0x1E, 0x87, 0xE9, 0xCE, 0x55, 0x28, 0xDF],
    [0x8C, 0xA1, 0x89, 0x0D, 0xBF, 0xE6, 0x42, 0x68, 0x41, 0x99, 0x2D, 0x0F, 0xB0, 0x54, 0xBB, 0x16] ]

/-- The inverse S-box, entry 16*hi + lo, row by row (43_mixing.md R122). -/
def invSboxRows : List (List Byte) :=
  [ [0x52, 0x09, 0x6A, 0xD5, 0x30, 0x36, 0xA5, 0x38, 0xBF, 0x40, 0xA3, 0x9E, 0x81, 0xF3, 0xD7, 0xFB],
    [0x7C, 0xE3, 0x39, 0x82, 0x9B, 0x2F, 0xFF, 0x87, 0x34, 0x8E, 0x43, 0x44, 0xC4, 0xDE, 0xE9, 0xCB],
    [0x54, 0x7B, 0x94, 0x32, 0xA6, 0xC2, 0x23, 0x3D, 0xEE, 0x4C, 0x95, 0x0B, 0x42, 0xFA, 0xC3, 0x4E],
    [0x08, 0x2E, 0xA1, 0x66, 0x28, 0xD9, 0x24, 0xB2, 0x76, 0x5B, 0xA2, 0x49, 0x6D, 0x8B, 0xD1, 0x25],
    [0x72, 0xF8, 0xF6, 0x64, 0x86, 0x68, 0x98, 0x16, 0xD4, 0xA4, 0x5C, 0xCC, 0x5D, 0x65, 0xB6, 0x92],
    [0x6C, 0x70, 0x48, 0x50, 0xFD, 0xED, 0xB9, 0xDA, 0x5E, 0x15, 0x46, 0x57, 0xA7, 0x8D, 0x9D, 0x84],
    [0x90, 0xD8, 0xAB, 0x00, 0x8C, 0xBC, 0xD3, 0x0A, 0xF7, 0xE4, 0x58, 0x05, 0xB8, 0xB3, 0x45, 0x06],
    [0xD0, 0x2C, 0x1E, 0x8F, 0xCA, 0x3F, 0x0F, 0x02, 0xC1, 0xAF, 0xBD, 0x03, 0x01, 0x13, 0x8A, 0x6B],
    [0x3A, 0x91, 0x11, 0x41, 0x4F, 0x67, 0xDC, 0xEA, 0x97, 0xF2, 0xCF, 0xCE, 0xF0, 0xB4, 0xE6, 0x73],
    [0x96, 0xAC, 0x74, 0x22, 0xE7, 0xAD, 0x35, 0x85, 0xE2, 0xF9, 0x37, 0xE8, 0x1C, 0x75, 0xDF, 0x6E],
    [0x47, 0xF1, 0x1A, 0x71, 0x1D, 0x29, 0xC5, 0x89, 0x6F, 0xB7, 0x62, 0x0E, 0xAA, 0x18, 0xBE, 0x1B],
    [0xFC, 0x56, 0x3E, 0x4B, 0xC6, 0xD2, 0x79, 0x20, 0x9A, 0xDB, 0xC0, 0xFE, 0x78, 0xCD, 0x5A, 0xF4],
    [0x1F, 0xDD, 0xA8, 0x33, 0x88, 0x07, 0xC7, 0x31, 0xB1, 0x12, 0x10, 0x59, 0x27, 0x80, 0xEC, 0x5F],
    [0x60, 0x51, 0x7F, 0xA9, 0x19, 0xB5, 0x4A, 0x0D, 0x2D, 0xE5, 0x7A, 0x9F, 0x93, 0xC9, 0x9C, 0xEF],
    [0xA0, 0xE0, 0x3B, 0x4D, 0xAE, 0x2A, 0xF5, 0xB0, 0xC8, 0xEB, 0xBB, 0x3C, 0x83, 0x53, 0x99, 0x61],
    [0x17, 0x2B, 0x04, 0x7E, 0xBA, 0x77, 0xD6, 0x26, 0xE1, 0x69, 0x14, 0x63, 0x55, 0x21, 0x0C, 0x7D] ]

/-- The S-box as a table (43_mixing.md R121). -/
def sboxTable : ByteTable := ⟨sboxRows.flatten.toArray, by decide +kernel⟩

/-- The inverse S-box as a table (43_mixing.md R122). -/
def invSboxTable : ByteTable := ⟨invSboxRows.flatten.toArray, by decide +kernel⟩

/-- S(x) of the fixed public table (43_mixing.md R121, R123). -/
def sbox (x : Byte) : Byte := lookup sboxTable x

/-- InvS(x) of the fixed public table (43_mixing.md R122, R123). -/
def invSbox (x : Byte) : Byte := lookup invSboxTable x

/-- S(x) as R120 defines it: the affine transform, with c = 0x63, of the field inverse, 0 for x = 0. The commands use the table
of R121; that the two agree is a statement. -/
def sboxFormula (x : Byte) : Byte :=
  let y : Byte := match gfInv x with
    | some r => r
    | none => 0
  BitVec.ofFnLE fun i : Fin 8 =>
    (y.getLsbD i.val).xor <| (y.getLsbD ((i.val + 4) % 8)).xor <| (y.getLsbD ((i.val + 5) % 8)).xor <|
      (y.getLsbD ((i.val + 6) % 8)).xor <| (y.getLsbD ((i.val + 7) % 8)).xor ((0x63#8).getLsbD i.val)

/-- SubBytes (43_mixing.md R123). -/
def subBytes (b : Block) : Block := b.map sbox

/-- InvSubBytes (43_mixing.md R123). -/
def invSubBytes (b : Block) : Block := b.map invSbox

/-- The block index of row `r`, column `c` of the state matrix (00_scope.md R11: byte i is s[i mod 4][i div 4]). -/
def matrixIndex (r c : Fin 4) : Fin 16 := ⟨r.val + 4 * c.val, by omega⟩

/-- The row of block byte `i` (00_scope.md R11). -/
def rowOf (i : Fin 16) : Fin 4 := ⟨i.val % 4, by omega⟩

/-- The column of block byte `i` (00_scope.md R11). -/
def colOf (i : Fin 16) : Fin 4 := ⟨i.val / 4, by omega⟩

/-- ShiftRows(s)[r][c] = s[r][(c + r) mod 4] (43_mixing.md R124; Fin 4 adds modulo 4). -/
def shiftRows (b : Block) : Block :=
  tabulate fun i => b[matrixIndex (rowOf i) (colOf i + rowOf i)]

/-- InvShiftRows(s)[r][c] = s[r][(c - r) mod 4] (43_mixing.md R124; Fin 4 subtracts modulo 4). -/
def invShiftRows (b : Block) : Block :=
  tabulate fun i => b[matrixIndex (rowOf i) (colOf i - rowOf i)]

/-- The matrix of MixColumns (43_mixing.md R125). -/
def mixMatrix : Vector (Vector Byte 4) 4 :=
  #v[#v[0x02, 0x03, 0x01, 0x01],
     #v[0x01, 0x02, 0x03, 0x01],
     #v[0x01, 0x01, 0x02, 0x03],
     #v[0x03, 0x01, 0x01, 0x02]]

/-- The matrix of InvMixColumns (43_mixing.md R125). -/
def invMixMatrix : Vector (Vector Byte 4) 4 :=
  #v[#v[0x0E, 0x0B, 0x0D, 0x09],
     #v[0x09, 0x0E, 0x0B, 0x0D],
     #v[0x0D, 0x09, 0x0E, 0x0B],
     #v[0x0B, 0x0D, 0x09, 0x0E]]

/-- Every column times a matrix: t[r] = the sum over k of M[r][k] times s[k][c] (43_mixing.md R125). -/
def mulColumns (m : Vector (Vector Byte 4) 4) (b : Block) : Block :=
  tabulate fun i =>
    let term (k : Fin 4) : Byte := gfMul m[rowOf i][k] b[matrixIndex k (colOf i)]
    term 0 ^^^ term 1 ^^^ term 2 ^^^ term 3

/-- MixColumns (43_mixing.md R125). -/
def mixColumns (b : Block) : Block := mulColumns mixMatrix b

/-- InvMixColumns (43_mixing.md R125). -/
def invMixColumns (b : Block) : Block := mulColumns invMixMatrix b

/-- AddRoundKey (43_mixing.md R126). -/
def addRoundKey (b key : Block) : Block :=
  tabulate fun i => b[i] ^^^ key[i]

/-- Round(B, K): the full AES round with the key itself as round key (43_mixing.md R127). -/
def mixRound (key b : Block) : Block :=
  addRoundKey (mixColumns (shiftRows (subBytes b))) key

/-- InvRound(B, K) (43_mixing.md R128). -/
def invMixRound (key b : Block) : Block :=
  invSubBytes (invShiftRows (invMixColumns (addRoundKey b key)))

/-- K_FIRST: 16 bytes 0x00 (00_scope.md R6). -/
def keyFirst : Block := tabulate fun _ => 0x00

/-- K_SECOND: 16 bytes 0xFF (00_scope.md R6). -/
def keySecond : Block := tabulate fun _ => 0xFF

/-- PermFirst with P1 = `p1` (43_mixing.md R129). -/
def permFirst (p1 : Byte) (b : Block) : Block := Nat.iterate (mixRound keyFirst) p1.toNat b

/-- PermSecond with P2 = `p2` (43_mixing.md R129). -/
def permSecond (p2 : Byte) (b : Block) : Block := Nat.iterate (mixRound keySecond) p2.toNat b

/-- InvPermFirst with P1 = `p1` (43_mixing.md R129). -/
def invPermFirst (p1 : Byte) (b : Block) : Block := Nat.iterate (invMixRound keyFirst) p1.toNat b

/-- InvPermSecond with P2 = `p2` (43_mixing.md R129). -/
def invPermSecond (p2 : Byte) (b : Block) : Block := Nat.iterate (invMixRound keySecond) p2.toNat b

/-- PERMF (43_mixing.md R130). -/
def execPermf (s : State) : Host.Outcome State Fault Refusal :=
  .next (s.setBlk (permFirst s.p1 s.blk))

/-- PERMS (43_mixing.md R131). -/
def execPerms (s : State) : Host.Outcome State Fault Refusal :=
  .next (s.setBlk (permSecond s.p2 s.blk))

/-- IPERMF (43_mixing.md R132). -/
def execIpermf (s : State) : Host.Outcome State Fault Refusal :=
  .next (s.setBlk (invPermFirst s.p1 s.blk))

/-- IPERMS (43_mixing.md R133). -/
def execIperms (s : State) : Host.Outcome State Fault Refusal :=
  .next (s.setBlk (invPermSecond s.p2 s.blk))

end Sys2Proof.Machine
end

