-- ==== Sys2Proof/Machine/Pipeline.lean ====
section
/-! DEFINITION. The encrypt and decrypt pipelines and their commands ENC, DEC (44_pipeline.md). -/

namespace Sys2Proof.Machine

/-- Encrypt with the slot `c` and the round counts `p1`, `p2`, in data-flow order (44_pipeline.md R140). -/
def encrypt (p1 p2 : Byte) (c : SlotState) (b : Block) : Block :=
  let b1 := subLayer c b
  let b2 := permFirst p1 b1
  let b3 := subLayer c b2
  let b4 := permSecond p2 b3
  subLayer c b4

/-- Decrypt with the slot `c` and the round counts `p1`, `p2`, in data-flow order (44_pipeline.md R140). -/
def decrypt (p1 p2 : Byte) (c : SlotState) (b : Block) : Block :=
  let b1 := invSubLayer c b
  let b2 := invPermSecond p2 b1
  let b3 := invSubLayer c b2
  let b4 := invPermFirst p1 b3
  invSubLayer c b4

/-- ENC (44_pipeline.md R141). -/
def execEnc (k : Slot) (s : State) : Host.Outcome State Fault Refusal :=
  .next (withCommitted k (encode (.enc k)) s fun c => s.setBlk (encrypt s.p1 s.p2 c s.blk))

/-- DEC (44_pipeline.md R142). -/
def execDec (k : Slot) (s : State) : Host.Outcome State Fault Refusal :=
  .next (withCommitted k (encode (.dec k)) s fun c => s.setBlk (decrypt s.p1 s.p2 c s.blk))

end Sys2Proof.Machine
end

