-- ==== Sys2Proof/Machine/Tables.lean ====
section
/-! DEFINITION. The permutation table commands TWR, TRD, TIRD, TSWAP, TIDENT, TCOMMIT (41_tables.md). -/

namespace Sys2Proof.Machine

/-- Every byte, in increasing order (00_scope.md R10: `for x in 0..255`). -/
def allBytes : List Byte :=
  (List.range 256).map (BitVec.ofNat 8)

/-- The table that maps every byte to itself (41_tables.md R96). -/
def identityTable : ByteTable :=
  tabulate fun x => BitVec.ofNat 8 x.val

/-- T with the entries `i` and `j` swapped (41_tables.md R95). -/
def swapEntries (t : ByteTable) (i j : Byte) : ByteTable :=
  writeEntry (writeEntry t i (lookup t j)) j (lookup t i)

/-- How many entries of `t` hold `v`. -/
def countValue (t : ByteTable) (v : Byte) : Nat :=
  t.toList.countP fun y => Nat.beq y.toNat v.toNat

/-- For every v in 0..255 there is exactly one x with t[x] = v (41_tables.md R97). -/
def bijective (t : ByteTable) : Bool :=
  allBytes.all fun v => Nat.beq (countValue t v) 1

/-- `for x in 0..255: TINV[T[x]] <- x`, from the TINV given (41_tables.md R97). -/
def deriveInverse (t tinv : ByteTable) : ByteTable :=
  allBytes.foldl (fun u x => writeEntry u (lookup t x) x) tinv

/-- The slot after TCOMMIT; none when T is not bijective (41_tables.md R97). -/
def commitSlot (c : SlotState) : Option SlotState :=
  if bijective c.t then some { c with tinv := deriveInverse c.t c.tinv, valid := true } else none

/-- TWR (41_tables.md R92). -/
def execTwr (k : Slot) (a b : Byte) (s : State) : Host.Outcome State Fault Refusal :=
  .next (s.setSlot k { s.slot k with t := writeEntry (s.slot k).t a b, valid := false })

/-- TRD (41_tables.md R93): the entry as it stands; of an entry not written since reset, the free value it holds. -/
def execTrd (k : Slot) (a : Byte) (s : State) : Host.Outcome State Fault Refusal :=
  .next (s.setRes (lookup (s.slot k).t a))

/-- TIRD (41_tables.md R94): TABLE_INVALID when VALID[k] = 0. -/
def execTird (k : Slot) (a : Byte) (s : State) : Host.Outcome State Fault Refusal :=
  .next (withCommitted k (encode (.tird k a)) s fun c => s.setRes (lookup c.tinv a))

/-- TSWAP (41_tables.md R95). -/
def execTswap (k : Slot) (i j : Byte) (s : State) : Host.Outcome State Fault Refusal :=
  .next (s.setSlot k { s.slot k with t := swapEntries (s.slot k).t i j, valid := false })

/-- TIDENT (41_tables.md R96). -/
def execTident (k : Slot) (s : State) : Host.Outcome State Fault Refusal :=
  .next (s.setSlot k { t := identityTable, tinv := identityTable, valid := true })

/-- TCOMMIT (41_tables.md R97): NOT_BIJECTIVE, with nothing changed, when T[k] is not a bijection. -/
def execTcommit (k : Slot) (s : State) : Host.Outcome State Fault Refusal :=
  .next (match commitSlot (s.slot k) with
    | some c => s.setSlot k c
    | none => raiseError .notBijective (encode (.tcommit k)) s)

end Sys2Proof.Machine
end

