-- ==== Sys2Proof/Machine/Dispatch.lean ====
section
/-! DEFINITION. The meaning of each command, one arm per constructor of `Instr` (30_encoding.md R63, R64). -/

namespace Sys2Proof.Machine

def exec (i : Instr) (s : State) : Host.Outcome State Fault Refusal :=
  match i with
  | .nop => Sys2Proof.Machine.execNop s
  | .clrerr => Sys2Proof.Machine.execClrerr s
  | .gadd a b => Sys2Proof.Machine.execGadd a b s
  | .gmul a b => Sys2Proof.Machine.execGmul a b s
  | .ginv a => Sys2Proof.Machine.execGinv a s
  | .gdbl a => Sys2Proof.Machine.execGdbl a s
  | .sub k => Sys2Proof.Machine.execSub k s
  | .isub k => Sys2Proof.Machine.execIsub k s
  | .permf => Sys2Proof.Machine.execPermf s
  | .perms => Sys2Proof.Machine.execPerms s
  | .ipermf => Sys2Proof.Machine.execIpermf s
  | .iperms => Sys2Proof.Machine.execIperms s
  | .enc k => Sys2Proof.Machine.execEnc k s
  | .dec k => Sys2Proof.Machine.execDec k s
  | .twr k a b => Sys2Proof.Machine.execTwr k a b s
  | .trd k a => Sys2Proof.Machine.execTrd k a s
  | .tird k a => Sys2Proof.Machine.execTird k a s
  | .tswap k a b => Sys2Proof.Machine.execTswap k a b s
  | .tident k => Sys2Proof.Machine.execTident k s
  | .tcommit k => Sys2Proof.Machine.execTcommit k s

end Sys2Proof.Machine
end

