-- ==== Sys2Proof/Machine/Bus.lean ====
section
/-! DEFINITION. The register window, the accesses of the host, and the other events from outside (10_state.md R20 to R28, 20_memory.md,
70_reset_and_hazards.md R180). -/

namespace Sys2Proof.Machine

/-- The offset of a named register (10_state.md R20). -/
def regOffset : Reg → Nat
  | .id => 0x00
  | .cfg => 0x04
  | .cmd => 0x08
  | .status => 0x0C
  | .errcmd => 0x10
  | .res => 0x14
  | .blk k => 0x20 + 4 * k.val

/-- The register at an aligned offset; none at the reserved offsets 0x18, 0x1C and 0x30..0x3C (10_state.md R20, R28). -/
def regAt (off : Nat) : Option Reg :=
  match off with
  | 0x00 => some .id
  | 0x04 => some .cfg
  | 0x08 => some .cmd
  | 0x0C => some .status
  | 0x10 => some .errcmd
  | 0x14 => some .res
  | 0x20 => some (.blk 0)
  | 0x24 => some (.blk 1)
  | 0x28 => some (.blk 2)
  | 0x2C => some (.blk 3)
  | _ => none

/-- The value of ID, "GF8S" (10_state.md R21). -/
def idWord : Word := 0x47463853

/-- The CFG word: reserved 0, ORDER 0, KMODE 0, NSLOTS 3, P2, P1 (10_state.md R22). -/
def cfgWord (s : State) : Word :=
  0#12 ++ 0#1 ++ 0#1 ++ 3#2 ++ s.p2 ++ s.p1

/-- What a read of a named register returns (10_state.md R20 to R27). -/
def readReg (r : Reg) (s : State) : Word :=
  match r with
  | .id => idWord
  | .cfg => cfgWord s
  | .cmd => 0
  | .status => statusWord s
  | .errcmd => s.errcmd
  | .res => 0#24 ++ s.res
  | .blk k => blkWord s.blk k

/-- What a read of an aligned offset returns; reserved offsets read 0 (10_state.md R28). -/
def readOffset (off : Nat) (s : State) : Word :=
  match regAt off with
  | some r => readReg r s
  | none => 0

/-- The read's data handed to the host (30_encoding.md R66 names it $REG). A read has no other effect (20_memory.md R46). -/
def answer (v : Word) (s : State) : State :=
  { s with answers := v :: s.answers }

/-- A command word issued (10_state.md R23, 30_encoding.md R64): the command runs, or ILLEGAL_CMD is raised with the word. -/
def issueCommand (w : Word) (s : State) : Host.Outcome State Fault Refusal :=
  match decode w with
  | some i => exec i s
  | none => .next (raiseError .illegalCmd w s)

/-- A write of a named register: CMD issues a command, BLKk is replaced, every other write is ignored (10_state.md R20 to R27,
20_memory.md R46). -/
def writeReg (r : Reg) (v : Word) (s : State) : Host.Outcome State Fault Refusal :=
  match r with
  | .cmd => issueCommand v s
  | .blk k => .next (s.setBlk (setBlkWord s.blk k v))
  | .id | .cfg | .status | .errcmd | .res => .next s

/-- A write of an aligned offset; reserved offsets ignore it (10_state.md R28). -/
def writeOffset (off : Nat) (v : Word) (s : State) : Host.Outcome State Fault Refusal :=
  match regAt off with
  | some r => writeReg r v s
  | none => .next s

/-- The offset of an access from BASE (20_memory.md R40). -/
def Access.off : Access → Int
  | .read off _ => off
  | .write off _ => off

/-- The access of the host at bus address `addr` (20_memory.md R41: off = a - BASE). -/
def readAt (addr : Nat) (width : Width) : Access := .read ((addr : Int) - Config.base) width

/-- The write of the host at bus address `addr` (20_memory.md R41: off = a - BASE). -/
def writeAt (addr : Nat) (data : WriteData) : Access := .write ((addr : Int) - Config.base) data

/-- The access selects the window: BASE <= a < BASE + 64 (20_memory.md R41). -/
def inWindow (off : Int) : Bool :=
  decide (0 ≤ off) && decide (off < 64)

/-- The offset of a legal access: a multiple of 4 (20_memory.md R42); none when misaligned. -/
def alignedOffset (off : Int) : Option Nat :=
  if off.toNat % 4 = 0 then some off.toNat else none

/-- An access inside the window: legal only when 32 bits wide and aligned, else a bus error (20_memory.md R42, R45). -/
def windowAccess (a : Access) (s : State) : Host.Outcome State Fault Refusal :=
  match alignedOffset a.off, a with
  | some o, .read _ .w32 => .next (answer (readOffset o s) s)
  | some o, .write _ (.b32 v) => writeOffset o v s
  | _, _ => .fault .busError

/-- A bus access while the block runs: decoded when it selects the window (20_memory.md R41). -/
def performAccess (a : Access) (s : State) : Host.Outcome State Fault Refusal :=
  if inWindow a.off then windowAccess a s else .refused .outsideWindow

/-- A slot after a reset: VALID = 0, and entries that may hold any values (70_reset_and_hazards.md R180, R181). -/
def resetSlot (draw slot : Nat) (c : SlotState) : SlotState where
  t := tabulate fun x => Config.resetByte draw slot false x.val c.t[x]
  tinv := tabulate fun x => Config.resetByte draw slot true x.val c.tinv[x]
  valid := false

/-- The block when reset is released (70_reset_and_hazards.md R180). The synthesis parameters stay; what the host still has to do and
what it has read are the host's. -/
def releaseReset (s : State) : State :=
  { s with
    err := 0
    errcmd := 0
    res := 0
    blk := tabulate fun _ => 0
    slots := tabulate fun k => resetSlot s.draws k.val s.slots[k]
    phase := .running
    draws := s.draws + 1 }

/-- The reset input changes level (70_reset_and_hazards.md R180): asserted, the block accepts no access; released after that, every piece
of state holds its reset value. In the phases `running` and `powerLost` it is not asserted, and releasing it again does nothing. -/
def setResetLine (asserted : Bool) (s : State) : State :=
  if asserted then { s with phase := .inReset }
  else match s.phase with
    | .inReset => releaseReset s
    | .running => s
    | .powerLost => s

/-- A slot after a loss of power (60_exceptions.md R174). -/
def lostSlot (draw slot : Nat) : SlotState where
  t := tabulate fun x => Config.lostEntry draw slot false x.val
  tinv := tabulate fun x => Config.lostEntry draw slot true x.val
  valid := Config.lostValid draw slot

/-- Where a loss of power leaves the block: without a use until a reset (60_exceptions.md R174), or, when reset is asserted, in that reset,
whose release gives the reset values (70_reset_and_hazards.md R180). -/
def Phase.afterPowerLoss : Phase → Phase
  | .inReset => .inReset
  | .running => .powerLost
  | .powerLost => .powerLost

/-- Power is removed (60_exceptions.md R174): all state is lost, so every stored register and table entry is a free value; the synthesis
parameters are hardwired, and what the host still has to do and what it has read are the host's. -/
def losePower (s : State) : State :=
  { s with
    err := Config.lostErr s.draws
    errcmd := Config.lostErrcmd s.draws
    res := Config.lostRes s.draws
    blk := tabulate fun i => Config.lostBlkByte s.draws i.val
    slots := tabulate fun k => lostSlot s.draws k.val
    phase := s.phase.afterPowerLoss
    draws := s.draws + 1 }

/-- One event from outside. -/
def handleEvent (e : Event) (s : State) : Host.Outcome State Fault Refusal :=
  match e with
  | .access a =>
    match s.phase with
    | .running => performAccess a s
    | .inReset => .refused .accessDuringReset
    | .powerLost => .refused .accessBeforeReset
  | .resetLine asserted => .next (setResetLine asserted s)
  | .powerLoss => .next (losePower s)

/-- The next event, in the order received (20_memory.md R45, R50); with none pending the block stays as it is
(70_reset_and_hazards.md R187). -/
def handleNext (s : State) : Host.Outcome State Fault Refusal :=
  match s.events with
  | [] => .next s
  | e :: rest => handleEvent e { s with events := rest }

/-- The host's write of a command word to CMD (10_state.md R23). -/
def commandWrite (w : Word) : Event :=
  .access (.write (regOffset .cmd) (.b32 w))

end Sys2Proof.Machine
end

