-- ==== Sys2Proof/Machine/Step.lean ====
section
/-! DEFINITION. One step: the block takes the next event from outside and completes it (20_memory.md R45, R50). -/

namespace Sys2Proof.Machine

/-- One step of the machine. -/
def step (s : State) : Host.Outcome State Fault Refusal :=
  handleNext s

/-- `s` with the host about to write the command word `w` (its low `nbits` bits) to CMD: the block fetches nothing, a command is the
value of a write to CMD (20_memory.md R43). The block must be running to accept it (assumption log 14). -/
def State.withFetchWord (s : State) (nbits w : Nat) : State :=
  { s with
    phase := .running
    events := commandWrite (BitVec.ofNat 32 (w % 2 ^ nbits)) :: s.events }

end Sys2Proof.Machine
end

