-- ==== Sys2Proof/Machine/Assembler.lean ====
section
/-! DEFINITION. The host's assembler (30_encoding.md R66 to R68): a line is one bus transaction, and a pseudo-instruction is a list
of lines. -/

namespace Sys2Proof.Machine

/-- A byte literal, 0..255; anything else is an assembly error (30_encoding.md R66). -/
def byteLiteral (n : Nat) : Option Byte :=
  if n ≤ 255 then some (BitVec.ofNat 8 n) else none

/-- A slot name, s0, s1 or s2; anything else is an assembly error (30_encoding.md R66). -/
def slotName (n : Nat) : Option Slot :=
  match n with
  | 0 => some .s0
  | 1 => some .s1
  | 2 => some .s2
  | _ => none

/-- The command of a line: the operands must have the mnemonic's form and range, else the assembler refuses the line
(30_encoding.md R66). -/
def assembleCommand (m : Mnemonic) (args : List AsmArg) : Option Instr :=
  match m, args with
  | .nop, [] | .clrerr, [] | .permf, [] | .perms, [] | .ipermf, [] | .iperms, [] => some (instrOf m 0 0 .s0)
  | .gadd, [.byte a, .byte b] | .gmul, [.byte a, .byte b] =>
    (byteLiteral a).bind fun a => (byteLiteral b).map fun b => instrOf m a b .s0
  | .ginv, [.byte a] | .gdbl, [.byte a] => (byteLiteral a).map fun a => instrOf m a 0 .s0
  | .sub, [.slot k] | .isub, [.slot k] | .enc, [.slot k] | .dec, [.slot k] | .tident, [.slot k] | .tcommit, [.slot k] =>
    (slotName k).map fun k => instrOf m 0 0 k
  | .trd, [.slot k, .byte a] | .tird, [.slot k, .byte a] =>
    (slotName k).bind fun k => (byteLiteral a).map fun a => instrOf m a 0 k
  | .twr, [.slot k, .byte a, .byte b] | .tswap, [.slot k, .byte a, .byte b] =>
    (slotName k).bind fun k => (byteLiteral a).bind fun a => (byteLiteral b).map fun b => instrOf m a b k
  | _, _ => none

/-- The bus transaction of a line; none when the assembler refuses it (30_encoding.md R66, R67). -/
def assembleLine : AsmLine → Option Event
  | .command m args => (assembleCommand m args).map fun i => commandWrite (encode i)
  | .wr r v => some (.access (.write (regOffset r) (.b32 v)))
  | .rd r => some (.access (.read (regOffset r) .w32))

/-- The expansion of a pseudo-instruction (30_encoding.md R68). The host computes the `mod` of `tshuffle` (41_tables.md R91, R95). -/
def expandPseudo : Pseudo → List AsmLine
  | .ldblk b => [.wr (.blk 0) (blkWord b 0), .wr (.blk 1) (blkWord b 1), .wr (.blk 2) (blkWord b 2), .wr (.blk 3) (blkWord b 3)]
  | .stblk => [.rd (.blk 0), .rd (.blk 1), .rd (.blk 2), .rd (.blk 3)]
  | .gsq a => [.command .gmul [.byte a, .byte a]]
  | .gxtime a => [.command .gdbl [.byte a]]
  | .gdiv a b resByte => [.command .ginv [.byte b], .rd .res, .command .gmul [.byte a, .byte resByte.toNat]]
  | .tload k t =>
    (List.finRange 256).map (fun x => .command .twr [.slot k, .byte x.val, .byte t[x].toNat]) ++ [.command .tcommit [.slot k]]
  | .tshuffle k r =>
    [.command .tident [.slot k]]
      ++ (List.finRange 255).map (fun j =>
          .command .tswap [.slot k, .byte (255 - j.val), .byte (r[j].toNat % (255 - j.val + 1))])
      ++ [.command .tcommit [.slot k]]
  | .chkerr => [.rd .status]

/-- The host's test after `chkerr`: `$STATUS[3:0] == 0` (30_encoding.md R68). -/
def statusClear (status : Word) : Bool :=
  status.extractLsb' 0 4 == 0

end Sys2Proof.Machine
end

