-- ==== Sys2Proof/Safety.lean ====
section
/-! DEFINITION. The terms the statements use: the families of commands, the check each command makes, the invariants of the machine,
and running a list of commands. -/

namespace Sys2Proof.Machine

/-- The families of the opcode table, one per section file. -/
inductive Family where
  | control | field | table | substitution | mixing | pipeline
  deriving DecidableEq, Repr

/-- The family of a command (INDEX.md). -/
def family : Instr → Family
  | .nop | .clrerr => .control
  | .gadd _ _ | .gmul _ _ | .ginv _ | .gdbl _ => .field
  | .sub _ | .isub _ => .substitution
  | .permf | .perms | .ipermf | .iperms => .mixing
  | .enc _ | .dec _ => .pipeline
  | .twr _ _ _ | .trd _ _ | .tird _ _ | .tswap _ _ _ | .tident _ | .tcommit _ => .table

/-- The slot a command names in SL, if it uses SL (30_encoding.md R63). -/
def slotOperand : Instr → Option Slot
  | .sub k | .isub k | .enc k | .dec k | .tident k | .tcommit k => some k
  | .twr k _ _ | .tswap k _ _ => some k
  | .trd k _ | .tird k _ => some k
  | .nop | .clrerr | .permf | .perms | .ipermf | .iperms => none
  | .gadd _ _ | .gmul _ _ | .ginv _ | .gdbl _ => none

/-- A command that needs a committed slot (60_exceptions.md R160, code 3). -/
def needsCommitted : Instr → Bool
  | .tird _ _ | .sub _ | .isub _ | .enc _ | .dec _ => true
  | .nop | .clrerr | .permf | .perms | .ipermf | .iperms => false
  | .gadd _ _ | .gmul _ _ | .ginv _ | .gdbl _ => false
  | .twr _ _ _ | .trd _ _ | .tswap _ _ _ | .tident _ | .tcommit _ => false

/-- The slot is a committed one in `s`, else TABLE_INVALID (60_exceptions.md R160). -/
def tableCheck (k : Slot) (s : State) : Option ErrCode :=
  if (s.slot k).valid then none else some .tableInvalid

/-- The error a command's own check finds in `s`, by the table of 60_exceptions.md R160 and the order of R164. -/
def commandError (i : Instr) (s : State) : Option ErrCode :=
  match i with
  | .ginv a => if a = 0 then some .invZero else none
  | .tird k _ => tableCheck k s
  | .sub k => tableCheck k s
  | .isub k => tableCheck k s
  | .enc k => tableCheck k s
  | .dec k => tableCheck k s
  | .tcommit k => if bijective (s.slot k).t then none else some .notBijective
  | .nop | .clrerr | .permf | .perms | .ipermf | .iperms => none
  | .gadd _ _ | .gmul _ _ | .gdbl _ => none
  | .twr _ _ _ | .trd _ _ | .tswap _ _ _ | .tident _ => none

/-- T is a bijection on 0..255: every value stands in exactly one entry (41_tables.md R97). -/
def IsBijection (t : ByteTable) : Prop :=
  ∀ v : Byte, ∃! x : Byte, lookup t x = v

/-- What VALID = 1 promises (10_state.md R30): T is a bijection and TINV is its inverse. -/
def SlotState.Coherent (c : SlotState) : Prop :=
  c.valid = true → IsBijection c.t ∧ ∀ x : Byte, lookup c.tinv (lookup c.t x) = x

/-- The invariant of 10_state.md R30, for every slot. -/
def State.Coherent (s : State) : Prop :=
  ∀ k : Slot, (s.slot k).Coherent

/-- P1 and P2 are 1..255 (00_scope.md R6). -/
def State.RoundsLegal (s : State) : Prop :=
  s.p1 ≠ 0 ∧ s.p2 ≠ 0

/-- What the error report holds: nothing, or the code of R160 and a word that raises that code (10_state.md R25, 60_exceptions.md R160). -/
def State.ErrorRecord (s : State) : Prop :=
  (s.err = 0 ∧ s.errcmd = 0) ∨
  (s.err = 1 ∧ decode s.errcmd = none) ∨
  (s.err = 2 ∧ decode s.errcmd = some (.ginv 0)) ∨
  (s.err = 3 ∧ ∃ i, decode s.errcmd = some i ∧ needsCommitted i = true) ∨
  (s.err = 4 ∧ ∃ k, decode s.errcmd = some (.tcommit k))

/-- "The program ran without error", at the end of a run with no CLRERR in it (60_exceptions.md R163). -/
def State.NoError (s : State) : Prop :=
  s.err = 0

/-- Commands run one after the other, stopping at a fault or a refusal. -/
def runCommands : List Instr → State → Host.Outcome State Fault Refusal
  | [], s => .next s
  | i :: is, s =>
    match exec i s with
    | .next t => runCommands is t
    | .fault f => .fault f
    | .refused r => .refused r

/-- Words written to CMD one after the other, legal or not, stopping at a fault or a refusal. -/
def runWords : List Word → State → Host.Outcome State Fault Refusal
  | [], s => .next s
  | w :: ws, s =>
    match issueCommand w s with
    | .next t => runWords ws t
    | .fault f => .fault f
    | .refused r => .refused r

/-- The command writes neither BLK nor slot `k` (40_field.md R88, 41_tables.md R90, 45_control.md R150, R151). -/
def sparesBlockAndSlot (k : Slot) (i : Instr) : Bool :=
  match family i with
  | .control => true
  | .field => true
  | .table => slotOperand i != some k
  | .substitution => false
  | .mixing => false
  | .pipeline => false

end Sys2Proof.Machine
end

