-- ==== Sys2Proof/Certificates/Slice0/Obligations.lean ====
section
/-! DEFINITION. The statements for the provers, from the numbered rules of spec/. -/

namespace Sys2Proof.Claims

open Sys2Proof.Machine

/-- `s` after `raise Error(code)` in command word `w` (60_exceptions.md R162), in the statements' own words. -/
def reported (code : BitVec 4) (w : Word) (s : State) : State :=
  if s.err = 0 then { s with err := code, errcmd := w } else s

/-- The encoding lines of a command's rule: `w` is its one command word, it stands in `row` of 30_encoding.md R63 (match and mask), the
assembler line `line` writes `w` to CMD (R66, R67), and a word with the row's OPC that the row does not select raises ILLEGAL_CMD (R64). -/
def EncodingCard (i : Instr) (w : Word) (row : CommandRow) (line : AsmLine) : Prop :=
  (∀ v : Word, decode v = some i ↔ v = w) ∧ row ∈ commandRows ∧ row.selects w = true ∧
    assembleLine line = some (commandWrite w) ∧
    ∀ (v : Word) (s : State), v.extractLsb' 0 8 = row.mnemonic.opc → row.selects v = false →
      issueCommand v s = .next (reported 1 v s)

/-- A byte operand of the assembler. -/
def byteArg (b : Byte) : AsmArg := .byte b.toNat

/-- A slot operand of the assembler. -/
def slotArg (k : Slot) : AsmArg := .slot (slotIndex k).val

/-- The block of four BLK words (10_state.md R27). -/
def blockOfWords (w0 w1 w2 w3 : Word) : Block :=
  setBlkWord (setBlkWord (setBlkWord (setBlkWord (tabulate fun _ => 0) 0 w0) 1 w1) 2 w2) 3 w3

/-- The block of 16 equal bytes. -/
def constantBlock (b : Byte) : Block := tabulate fun _ => b

/-- The block 00, 01, ..., 0F (95_test_vectors.md). -/
def countingBlock : Block := tabulate fun i => BitVec.ofNat 8 i.val

/-- The text "-#- correct! -#-" as a block (95_test_vectors.md). -/
def textBlock : Block := blockOfWords 0x202D232D 0x72726F63 0x21746365 0x2D232D20

/-- A slot committed with the identity (41_tables.md R96). -/
def identitySlot : SlotState := { t := identityTable, tinv := identityTable, valid := true }

/-- The access is 32 bits wide (20_memory.md R42). -/
def isWordAccess : Access → Bool
  | .read _ .w32 => true
  | .read _ .w8 => false
  | .read _ .w16 => false
  | .read _ .w64 => false
  | .write _ (.b32 _) => true
  | .write _ (.b8 _) => false
  | .write _ (.b16 _) => false
  | .write _ (.b64 _) => false

/-- What a read of the window returns at an aligned offset, by the register map of 10_state.md R20. -/
def mapValue (off : Nat) (s : State) : Word :=
  if off = 0x00 then 0x47463853
  else if off = 0x04 then 0#12 ++ 0#1 ++ 0#1 ++ 3#2 ++ s.p2 ++ s.p1
  else if off = 0x0C then
    0#21 ++ BitVec.ofBool (s.slot .s2).valid ++ BitVec.ofBool (s.slot .s1).valid ++ BitVec.ofBool (s.slot .s0).valid
      ++ 0#4 ++ s.err
  else if off = 0x10 then s.errcmd
  else if off = 0x14 then 0#24 ++ s.res
  else if off = 0x20 then s.blk[3] ++ s.blk[2] ++ s.blk[1] ++ s.blk[0]
  else if off = 0x24 then s.blk[7] ++ s.blk[6] ++ s.blk[5] ++ s.blk[4]
  else if off = 0x28 then s.blk[11] ++ s.blk[10] ++ s.blk[9] ++ s.blk[8]
  else if off = 0x2C then s.blk[15] ++ s.blk[14] ++ s.blk[13] ++ s.blk[12]
  else 0

/-- The next event writes a word that decodes to `i` to CMD. -/
def issues (s : State) (i : Instr) : Prop :=
  ∃ w rest, s.events = .access (.write 0x08 (.b32 w)) :: rest ∧ decode w = some i

/-- The next event ends a reset (70_reset_and_hazards.md R180). -/
def endsReset (s : State) : Prop :=
  s.phase = .inReset ∧ ∃ rest, s.events = .resetLine false :: rest

/-- The next event takes the power away (60_exceptions.md R174). -/
def losesPower (s : State) : Prop :=
  ∃ rest, s.events = .powerLoss :: rest

/-- A byte as a polynomial over GF(2): bit i is the coefficient of x^i (00_scope.md R8). -/
noncomputable def bytePoly (b : Byte) : Polynomial (ZMod 2) :=
  ∑ i : Fin 8, if b.getLsbD i.val then Polynomial.X ^ i.val else 0

/-- The Rijndael polynomial x^8 + x^4 + x^3 + x + 1 (00_scope.md R6, 40_field.md R80). -/
noncomputable def rijndael : Polynomial (ZMod 2) :=
  Polynomial.X ^ 8 + Polynomial.X ^ 4 + Polynomial.X ^ 3 + Polynomial.X + 1

end Sys2Proof.Claims

open Sys2Proof Sys2Proof.Machine Sys2Proof.Claims

/-! ## Encoding -/

/-- 30_encoding.md R60 to R63: decoding the word of a command gives the command back, for every command and every operand. -/
def Obligations.DecodeOfEncodeGivesTheCommand : Prop :=
  ∀ i : Instr, decode (encode i) = some i

/-- 30_encoding.md R64: a word that decodes is the word of the command it decodes to, so no bit of a legal word is dropped. -/
def Obligations.LegalWordIsTheWordOfItsCommand : Prop :=
  ∀ (w : Word) (i : Instr), decode w = some i → encode i = w

/-- 30_encoding.md R64, R65: every word either selects exactly one row of R63, and then decodes to that row's command with
a = w[15:8], b = w[23:16] and the slot of w[25:24], or selects none, and then issuing it raises ILLEGAL_CMD with no other effect. -/
def Obligations.DecodeFollowsTheRowTable : Prop :=
  ∀ w : Word,
    (∃ r k, r ∈ commandRows ∧ r.selects w = true ∧ (∀ r' ∈ commandRows, r'.selects w = true → r' = r) ∧
        slotOfField (w.extractLsb' 24 2) = some k ∧
        decode w = some (instrOf r.mnemonic (w.extractLsb' 8 8) (w.extractLsb' 16 8) k)) ∨
      ((∀ r ∈ commandRows, r.selects w = false) ∧ decode w = none ∧
        ∀ s : State, issueCommand w s = .next (reported 1 w s))

/-- 30_encoding.md R63, R67 and 95_test_vectors.md: words written out from the spec's encoding decode to their commands, and the
illegal words V24 to V30b decode to none. -/
def Obligations.SampleWordsDecode : Prop :=
  decode 0x00000000 = some .nop ∧ decode 0x00000001 = some .clrerr ∧
  decode 0x00835708 = some (.gadd 0x57 0x83) ∧ decode 0x00835709 = some (.gmul 0x57 0x83) ∧
  decode 0x0000530A = some (.ginv 0x53) ∧ decode 0x0000570B = some (.gdbl 0x57) ∧
  decode 0x02000010 = some (.sub .s2) ∧ decode 0x01000011 = some (.isub .s1) ∧
  decode 0x00000012 = some .permf ∧ decode 0x00000018 = some (.enc .s0) ∧
  decode 0x01AB1020 = some (.twr .s1 0x10 0xAB) ∧ decode 0x0211FF23 = some (.tswap .s2 255 17) ∧
  decode 0x0000AB22 = some (.tird .s0 0xAB) ∧ decode 0x01000025 = some (.tcommit .s1) ∧
  [0x00000002, 0x00000016, 0x000000FF, 0x04000010, 0x03000010, 0x00000100, 0x00010012, 0x00FF010A, 0x03000020].all
    (fun w : Word => decode w == none) = true

/-- 30_encoding.md R66, R67: a line the assembler accepts writes {6'b0, s, b, a, OPC} to CMD, which is a legal word; a byte operand above 255 and
a slot above 2 are refused; the four examples of R67. -/
def Obligations.AssemblerEncodesLegalWords : Prop :=
  (∀ (m : Mnemonic) (args : List AsmArg) (e : Event), assembleLine (.command m args) = some e →
    (∃ (a b : Byte) (k : Slot),
      e = commandWrite (0#6 ++ slotField k ++ b ++ a ++ m.opc) ∧
      decode (0#6 ++ slotField k ++ b ++ a ++ m.opc) = some (instrOf m a b k) ∧
      wellFormedWord (0#6 ++ slotField k ++ b ++ a ++ m.opc) = true) ∧
    (∀ n, AsmArg.byte n ∈ args → n ≤ 255) ∧ (∀ n, AsmArg.slot n ∈ args → n ≤ 2)) ∧
  assembleLine (.command .gmul [.byte 0x57, .byte 0x83]) = some (commandWrite 0x00835709) ∧
  assembleLine (.command .twr [.slot 1, .byte 0x10, .byte 0xAB]) = some (commandWrite 0x01AB1020) ∧
  assembleLine (.command .enc [.slot 0]) = some (commandWrite 0x00000018) ∧
  assembleLine (.command .tswap [.slot 2, .byte 255, .byte 17]) = some (commandWrite 0x0211FF23)

/-! ## Control commands -/

/-- 45_control.md R150: NOP changes no state; the all-zero word is NOP, and any other word with OPC 0x00 raises ILLEGAL_CMD. -/
def Obligations.NopChangesNothing : Prop :=
  EncodingCard .nop 0x00000000 ⟨.nop, 0x00000000, 0xFFFFFFFF, false⟩ (.command .nop []) ∧
  (∀ (w : Word) (s : State), w.extractLsb' 0 8 = 0#8 → w ≠ 0 → issueCommand w s = .next (reported 1 w s)) ∧
  ∀ s : State, exec .nop s = .next s

/-- 45_control.md R151: CLRERR clears ERR and ERRCMD and nothing else; a malformed CLRERR word raises ILLEGAL_CMD. -/
def Obligations.ClrerrClearsTheReport : Prop :=
  EncodingCard .clrerr 0x00000001 ⟨.clrerr, 0x00000001, 0xFFFFFFFF, false⟩ (.command .clrerr []) ∧
  (∀ s : State, exec .clrerr s = .next { s with err := 0, errcmd := 0 }) ∧
  (∀ s : State, s.err = 0 → s.errcmd = 0 → exec .clrerr s = .next s) ∧
  (∀ (w : Word) (s : State), w.extractLsb' 0 8 = 1#8 → w ≠ 1 →
    issueCommand w s = .next (reported 1 w s) ∧ (reported 1 w s).err = if s.err = 0 then 1 else s.err) ∧
  (∀ s : State, s.err = 0 → s.errcmd = 0 →
    exec (.ginv 0) s = .next { s with err := 2, errcmd := 0x0000000A } ∧ runCommands [.ginv 0, .clrerr] s = .next s)

/-! ## Field commands -/

/-- 40_field.md R80: gf_mul is the product of the polynomials of its operands over GF(2), reduced modulo the Rijndael polynomial, for
every pair of bytes; a byte is determined by its polynomial, so this fixes every bit of the product. -/
def Obligations.GfMulIsThePolynomialProduct : Prop :=
  Function.Injective bytePoly ∧
  ∀ a b : Byte, bytePoly (gfMul a b) = (bytePoly a * bytePoly b).modByMonic rijndael

/-- 40_field.md R83: the laws of the field operations. -/
def Obligations.FieldLawsHold : Prop :=
  (∀ a : Byte, a ≠ 0 → ∃ b : Byte, gfInv a = some b ∧ gfMul a b = 1) ∧
  (∀ a b c : Byte, gfMul a (b ^^^ c) = gfMul a b ^^^ gfMul a c) ∧
  (∀ a : Byte, a ^^^ a = 0) ∧
  (∀ a b : Byte, gfMul a b = gfMul b a) ∧
  (∀ a b c : Byte, gfMul (gfMul a b) c = gfMul a (gfMul b c)) ∧
  (∀ a : Byte, gfMul a 1 = a ∧ gfMul 1 a = a ∧ gfMul a 0 = 0) ∧
  (∀ a b c : Byte, a ^^^ b = b ^^^ a ∧ (a ^^^ b) ^^^ c = a ^^^ (b ^^^ c) ∧ a ^^^ 0 = a) ∧
  (∀ a : Byte, dbl a = gfMul a 2)

/-- 40_field.md R84: GADD leaves a xor b in RES and changes nothing else. -/
def Obligations.GaddAddsInTheField : Prop :=
  ∀ (a b : Byte) (s : State),
    EncodingCard (.gadd a b) (0#8 ++ b ++ a ++ 0x08#8) ⟨.gadd, 0x00000008, 0xFF0000FF, false⟩
      (.command .gadd [byteArg a, byteArg b]) ∧
    exec (.gadd a b) s = .next { s with res := a ^^^ b } ∧
    exec (.gadd a a) s = .next { s with res := 0 } ∧
    exec (.gadd 0 b) s = .next { s with res := b } ∧
    decode 0x00835708 = some (.gadd 0x57 0x83) ∧ exec (.gadd 0x57 0x83) s = .next { s with res := 0xD4 }

/-- 40_field.md R85: GMUL leaves gf_mul(a, b) in RES and changes nothing else. -/
def Obligations.GmulMultipliesInTheField : Prop :=
  ∀ (a b : Byte) (s : State),
    EncodingCard (.gmul a b) (0#8 ++ b ++ a ++ 0x09#8) ⟨.gmul, 0x00000009, 0xFF0000FF, false⟩
      (.command .gmul [byteArg a, byteArg b]) ∧
    exec (.gmul a b) s = .next { s with res := gfMul a b } ∧
    exec (.gmul 0 b) s = .next { s with res := 0 } ∧
    exec (.gmul a 0) s = .next { s with res := 0 } ∧
    exec (.gmul 1 b) s = .next { s with res := b } ∧
    exec (.gmul 0xFF 0xFF) s = .next { s with res := 0x13 } ∧
    exec (.gmul 0x80 0x02) s = .next { s with res := 0x1B } ∧
    decode 0x00835709 = some (.gmul 0x57 0x83) ∧ exec (.gmul 0x57 0x83) s = .next { s with res := 0xC1 }

/-- 40_field.md R86, R82: GINV leaves the one inverse of a nonzero a, which is a^254, in RES and changes nothing else; for a = 0, which has no inverse,
it raises INV_ZERO and RES stays. -/
def Obligations.GinvInvertsInTheField : Prop :=
  ∀ (a : Byte) (s : State),
    EncodingCard (.ginv a) (0#16 ++ a ++ 0x0A#8) ⟨.ginv, 0x0000000A, 0xFFFF00FF, false⟩
      (.command .ginv [byteArg a]) ∧
    (a = 0 → gfInv a = none ∧ (∀ b : Byte, gfMul a b ≠ 1) ∧
      exec (.ginv a) s = .next (reported 2 0x0000000A s) ∧ (reported 2 0x0000000A s).res = s.res) ∧
    (a ≠ 0 → ∃ b : Byte, gfMul a b = 1 ∧ (∀ c : Byte, gfMul a c = 1 → c = b) ∧ Nat.iterate (gfMul a) 254 1 = b ∧
      exec (.ginv a) s = .next { s with res := b } ∧ exec (.ginv b) s = .next { s with res := a }) ∧
    exec (.ginv 0x01) s = .next { s with res := 0x01 } ∧
    exec (.ginv 0x02) s = .next { s with res := 0x8D } ∧
    exec (.ginv 0xFF) s = .next { s with res := 0x1C } ∧
    decode 0x0000530A = some (.ginv 0x53) ∧ exec (.ginv 0x53) s = .next { s with res := 0xCA } ∧
    sbox 0 = 0x63

/-- 40_field.md R87, R81: GDBL leaves dbl(a), which is a times 0x02, in RES and changes nothing else. -/
def Obligations.GdblDoublesInTheField : Prop :=
  ∀ (a : Byte) (s : State),
    EncodingCard (.gdbl a) (0#16 ++ a ++ 0x0B#8) ⟨.gdbl, 0x0000000B, 0xFFFF00FF, false⟩
      (.command .gdbl [byteArg a]) ∧
    exec (.gdbl a) s = .next { s with res := dbl a } ∧ dbl a = gfMul a 0x02 ∧
    dbl a = (if a.getLsbD 7 then (a.extractLsb' 0 7 ++ 0#1) ^^^ 0x1B#8 else (a.extractLsb' 0 7 ++ 0#1 : Byte)) ∧
    (a.toNat < 0x80 → dbl a = a <<< 1) ∧ (0x80 ≤ a.toNat → dbl a = (a <<< 1) ^^^ 0x1B#8) ∧
    dbl 0x80 = 0x1B ∧ dbl 0xFF = 0xE5 ∧ dbl 0x00 = 0x00 ∧
    expandPseudo (.gxtime a.toNat) = [.command .gdbl [byteArg a]] ∧
    decode 0x0000570B = some (.gdbl 0x57) ∧ exec (.gdbl 0x57) s = .next { s with res := 0xAE }

/-- 40_field.md R88: a field command is a function of its command word alone that writes RES, or raises INV_ZERO; it reads and writes no
BLK, slot or VALID. -/
def Obligations.FieldCommandsTouchOnlyRes : Prop :=
  ∀ i : Instr, family i = .field →
    (∃ r : Byte, ∀ s : State, exec i s = .next { s with res := r }) ∨
      (i = .ginv 0 ∧ ∀ s : State, exec i s = .next (reported 2 (encode i) s))

/-! ## Table commands -/

/-- 41_tables.md R92: TWR writes one forward entry, clears VALID, and leaves TINV, the other slots and everything else as they were. -/
def Obligations.TwrWritesOneEntry : Prop :=
  ∀ (k : Slot) (a b : Byte) (s : State),
    EncodingCard (.twr k a b) (0#6 ++ slotField k ++ b ++ a ++ 0x20#8) ⟨.twr, 0x00000020, 0xFC0000FF, true⟩
      (.command .twr [slotArg k, byteArg a, byteArg b]) ∧
    decode 0x01AB1020 = some (.twr .s1 0x10 0xAB) ∧
    ∃ t : State, exec (.twr k a b) s = .next t ∧
      (∀ x : Byte, lookup (t.slot k).t x = if x = a then b else lookup (s.slot k).t x) ∧
      (t.slot k).tinv = (s.slot k).tinv ∧ (t.slot k).valid = false ∧
      (statusWord t).getLsbD (8 + (slotIndex k).val) = false ∧
      (∀ j : Slot, j ≠ k → t.slot j = s.slot j) ∧ { t with slots := s.slots } = s

/-- 41_tables.md R93: TRD leaves the forward entry, whatever it holds, in RES and changes nothing else; VALID is not needed. -/
def Obligations.TrdReadsTheForwardEntry : Prop :=
  ∀ (k : Slot) (a : Byte) (s : State),
    EncodingCard (.trd k a) (0#6 ++ slotField k ++ 0#8 ++ a ++ 0x21#8) ⟨.trd, 0x00000021, 0xFCFF00FF, true⟩
      (.command .trd [slotArg k, byteArg a]) ∧
    exec (.trd k a) s = .next { s with res := lookup (s.slot k).t a } ∧
    decode 0x00004221 = some (.trd .s0 0x42) ∧
    ∃ t : State, exec (.tident .s0) s = .next t ∧ exec (.trd .s0 0x42) t = .next { t with res := 0x42 }

/-- 41_tables.md R94: TIRD leaves the inverse entry of a committed slot in RES and changes nothing else; with VALID = 0 it raises
TABLE_INVALID. On a slot that keeps R30, the forward table maps the result back. -/
def Obligations.TirdReadsTheInverseEntry : Prop :=
  ∀ (k : Slot) (a : Byte) (s : State),
    EncodingCard (.tird k a) (0#6 ++ slotField k ++ 0#8 ++ a ++ 0x22#8) ⟨.tird, 0x00000022, 0xFCFF00FF, true⟩
      (.command .tird [slotArg k, byteArg a]) ∧
    ((s.slot k).valid = false → exec (.tird k a) s = .next (reported 3 (encode (.tird k a)) s)) ∧
    ((s.slot k).valid = true → exec (.tird k a) s = .next { s with res := lookup (s.slot k).tinv a }) ∧
    ((s.slot k).valid = true → (s.slot k).Coherent → lookup (s.slot k).t (lookup (s.slot k).tinv a) = a) ∧
    decode 0x0000AB22 = some (.tird .s0 0xAB) ∧
    ((s.slot .s0).valid = true → (s.slot .s0).Coherent → lookup (s.slot .s0).t 0x10 = 0xAB →
      exec (.tird .s0 0xAB) s = .next { s with res := 0x10 })

/-- 41_tables.md R95: TSWAP swaps two forward entries, clears VALID, and leaves TINV, the other slots and everything else as they were; a
bijection stays one, so that TCOMMIT then succeeds. -/
def Obligations.TswapSwapsTwoEntries : Prop :=
  ∀ (k : Slot) (i j : Byte) (s : State),
    EncodingCard (.tswap k i j) (0#6 ++ slotField k ++ j ++ i ++ 0x23#8) ⟨.tswap, 0x00000023, 0xFC0000FF, true⟩
      (.command .tswap [slotArg k, byteArg i, byteArg j]) ∧
    decode 0x0211FF23 = some (.tswap .s2 255 17) ∧
    (∃ t : State, exec (.tswap k i j) s = .next t ∧
      lookup (t.slot k).t i = lookup (s.slot k).t j ∧ lookup (t.slot k).t j = lookup (s.slot k).t i ∧
      (∀ x : Byte, x ≠ i → x ≠ j → lookup (t.slot k).t x = lookup (s.slot k).t x) ∧
      (i = j → (t.slot k).t = (s.slot k).t) ∧
      (t.slot k).tinv = (s.slot k).tinv ∧ (t.slot k).valid = false ∧
      (∀ j' : Slot, j' ≠ k → t.slot j' = s.slot j') ∧ { t with slots := s.slots } = s ∧
      (IsBijection (s.slot k).t → IsBijection (t.slot k).t ∧
        ∃ u : State, exec (.tcommit k) t = .next u ∧ (u.slot k).valid = true ∧ u.err = t.err)) ∧
    ∃ t : State, runCommands [.tident .s2, .tswap .s2 255 17] s = .next t ∧
      lookup (t.slot .s2).t 255 = 17 ∧ lookup (t.slot .s2).t 17 = 255 ∧ (t.slot .s2).valid = false

/-- 41_tables.md R96: TIDENT makes T and TINV the identity and sets VALID, which keeps R30 at once; a SUB on the slot then leaves BLK; nothing
else changes. -/
def Obligations.TidentLoadsTheIdentity : Prop :=
  ∀ (k : Slot) (s : State),
    EncodingCard (.tident k) (0#6 ++ slotField k ++ 0#8 ++ 0#8 ++ 0x24#8) ⟨.tident, 0x00000024, 0xFCFFFFFF, true⟩
      (.command .tident [slotArg k]) ∧
    ∃ t : State, exec (.tident k) s = .next t ∧
      (∀ x : Byte, lookup (t.slot k).t x = x ∧ lookup (t.slot k).tinv x = x) ∧
      (t.slot k).valid = true ∧ (t.slot k).Coherent ∧ (statusWord t).getLsbD (8 + (slotIndex k).val) = true ∧
      (∀ j : Slot, j ≠ k → t.slot j = s.slot j) ∧ { t with slots := s.slots } = s ∧
      exec (.sub k) t = .next t

/-- 41_tables.md R97: TCOMMIT on a bijection derives TINV and sets VALID and changes nothing else; otherwise it raises NOT_BIJECTIVE with
nothing changed but the report. Whether T is a bijection depends on every entry, the unwritten ones included. -/
def Obligations.TcommitChecksAndDerivesTheInverse : Prop :=
  ∀ (k : Slot) (s : State),
    EncodingCard (.tcommit k) (0#6 ++ slotField k ++ 0#8 ++ 0#8 ++ 0x25#8) ⟨.tcommit, 0x00000025, 0xFCFFFFFF, true⟩
      (.command .tcommit [slotArg k]) ∧
    (IsBijection (s.slot k).t → ∃ t : State, exec (.tcommit k) s = .next t ∧
      (t.slot k).t = (s.slot k).t ∧ (∀ x : Byte, lookup (t.slot k).tinv (lookup (t.slot k).t x) = x) ∧
      (t.slot k).valid = true ∧ (∀ j : Slot, j ≠ k → t.slot j = s.slot j) ∧ { t with slots := s.slots } = s) ∧
    (¬ IsBijection (s.slot k).t → exec (.tcommit k) s = .next (reported 4 (encode (.tcommit k)) s)) ∧
    (¬ IsBijection (s.slot k).t ↔ ∃ x y : Byte, x ≠ y ∧ lookup (s.slot k).t x = lookup (s.slot k).t y) ∧
    (¬ IsBijection (s.slot k).t ↔ ∃ v : Byte, ∀ x : Byte, lookup (s.slot k).t x ≠ v) ∧
    ((s.slot k).valid = true → (s.slot k).Coherent → exec (.tcommit k) s = .next s) ∧
    (¬ IsBijection (s.slot k).t → (s.slot k).Coherent → (s.slot k).valid = false) ∧
    decode 0x01000025 = some (.tcommit .s1) ∧
    ∃ t : State, runCommands [.tident .s1, .tswap .s1 0 1, .tcommit .s1] s = .next t ∧ (t.slot .s1).valid = true ∧
      ∀ x : Byte, lookup (t.slot .s1).tinv x = if x = 0 then 1 else if x = 1 then 0 else x

/-- 41_tables.md R90: a table command on slot k reads and writes only slot k and, for TRD and TIRD, RES. A failing TIRD or TCOMMIT reports
its error and does nothing else, and no other table command touches the report. From any state with the same slot k, whatever RES, BLK, the
other slots and the report hold, the slot comes out the same; a TRD or TIRD that succeeds leaves the same RES, and equal reports stay equal.
SL = 3 is refused at decode. -/
def Obligations.TableCommandsTouchOnlyTheirSlot : Prop :=
  (∀ (i : Instr) (k : Slot) (s : State), family i = .table → slotOperand i = some k →
    ∃ t : State, exec i s = .next t ∧ (∀ j : Slot, j ≠ k → t.slot j = s.slot j) ∧ t.blk = s.blk ∧
      ((∀ a : Byte, i ≠ .trd k a ∧ i ≠ .tird k a) → t.res = s.res) ∧
      { t with slots := s.slots, res := s.res, err := s.err, errcmd := s.errcmd } = s ∧
      (commandError i s = none → t.err = s.err ∧ t.errcmd = s.errcmd) ∧
      (∀ c : ErrCode, commandError i s = some c → t = reported c.code (encode i) s ∧
        ((∃ a : Byte, i = .tird k a) ∨ i = .tcommit k)) ∧
      ∀ s' : State, s'.slot k = s.slot k → ∃ t' : State, exec i s' = .next t' ∧
        t'.slot k = t.slot k ∧ commandError i s' = commandError i s ∧
        (commandError i s = none → (∃ a : Byte, i = .trd k a ∨ i = .tird k a) → t'.res = t.res) ∧
        (s'.err = s.err → s'.errcmd = s.errcmd → t'.err = t.err ∧ t'.errcmd = t.errcmd)) ∧
  (∀ (w : Word) (s : State), w.extractLsb' 24 2 = 3#2 → decode w = none ∧ issueCommand w s = .next (reported 1 w s))

/-- 41_tables.md R98: TWR and TSWAP are accepted on a committed slot and clear its VALID bit, and SUB, ISUB, ENC and DEC on that slot then
raise TABLE_INVALID in every state in which it is still uncommitted. -/
def Obligations.WritingATableUncommitsItsSlot : Prop :=
  ∀ (i : Instr) (k : Slot) (s : State), (∃ a b : Byte, i = .twr k a b ∨ i = .tswap k a b) →
    ∃ t : State, exec i s = .next t ∧ (t.slot k).valid = false ∧
      ∀ c ∈ [Instr.sub k, Instr.isub k, Instr.enc k, Instr.dec k],
        exec c t = .next (reported 3 (encode c) t) ∧
        ∀ (is : List Instr) (u : State), (∀ d ∈ is, d ≠ .tident k ∧ d ≠ .tcommit k) → runCommands is t = .next u →
          exec c u = .next (reported 3 (encode c) u)

/-- 41_tables.md R99: after a successful TCOMMIT or TIDENT the two tables of the slot undo each other, both ways. -/
def Obligations.CommittedTablesUndoEachOther : Prop :=
  ∀ (k : Slot) (i : Instr) (s t : State),
    (i = .tident k ∨ (i = .tcommit k ∧ commandError i s = none)) → exec i s = .next t →
      (∀ x : Byte, lookup (t.slot k).tinv (lookup (t.slot k).t x) = x) ∧
      (∀ y : Byte, lookup (t.slot k).t (lookup (t.slot k).tinv y) = y)

/-! ## Substitution commands -/

/-- 42_substitution.md R112, R110: SUB on a committed slot puts every block byte through T and changes nothing else; with VALID = 0 it raises
TABLE_INVALID and BLK stays. -/
def Obligations.SubPutsEachByteThroughT : Prop :=
  ∀ (k : Slot) (s : State),
    EncodingCard (.sub k) (0#6 ++ slotField k ++ 0#8 ++ 0#8 ++ 0x10#8) ⟨.sub, 0x00000010, 0xFCFFFFFF, true⟩
      (.command .sub [slotArg k]) ∧
    ((s.slot k).valid = false → exec (.sub k) s = .next (reported 3 (encode (.sub k)) s)) ∧
    ((s.slot k).valid = true → ∃ t : State, exec (.sub k) s = .next t ∧
      (∀ i : Fin 16, t.blk[i] = lookup (s.slot k).t s.blk[i]) ∧ { t with blk := s.blk } = s) ∧
    ((s.slot .s0).valid = true → (s.slot .s0).t = swapEntries identityTable 0 1 → s.blk = countingBlock →
      exec (.sub .s0) s = .next { s with blk := blockOfWords 0x03020001 0x07060504 0x0B0A0908 0x0F0E0D0C })

/-- 42_substitution.md R113: ISUB on a committed slot puts every block byte through TINV and changes nothing else; with VALID = 0 it raises
TABLE_INVALID and BLK stays; after SUB on a slot that keeps R30, it restores the state. -/
def Obligations.IsubPutsEachByteThroughTinv : Prop :=
  ∀ (k : Slot) (s : State),
    EncodingCard (.isub k) (0#6 ++ slotField k ++ 0#8 ++ 0#8 ++ 0x11#8) ⟨.isub, 0x00000011, 0xFCFFFFFF, true⟩
      (.command .isub [slotArg k]) ∧
    ((s.slot k).valid = false → exec (.isub k) s = .next (reported 3 (encode (.isub k)) s)) ∧
    ((s.slot k).valid = true → ∃ t : State, exec (.isub k) s = .next t ∧
      (∀ i : Fin 16, t.blk[i] = lookup (s.slot k).tinv s.blk[i]) ∧ { t with blk := s.blk } = s) ∧
    ((s.slot k).valid = true → (s.slot k).Coherent → runCommands [.sub k, .isub k] s = .next s)

/-- 42_substitution.md R111: on a committed slot that keeps R30 the two substitution layers undo each other, both ways. -/
def Obligations.SubstitutionLayersUndoEachOther : Prop :=
  ∀ (c : SlotState) (b : Block), c.valid = true → c.Coherent →
    (∀ i : Fin 16, (invSubLayer c b)[i] = lookup c.tinv b[i]) ∧
    invSubLayer c (subLayer c b) = b ∧ subLayer c (invSubLayer c b) = b

/-! ## Mixing commands -/

/-- 43_mixing.md R120 to R122: the two fixed tables are the affine transform of the field inverse and its inverse map. -/
def Obligations.SboxTableIsTheAffineInverse : Prop :=
  (∀ x : Byte, sbox x = sboxFormula x) ∧ (∀ x : Byte, invSbox (sbox x) = x) ∧ (∀ x : Byte, sbox (invSbox x) = x) ∧
  sbox 0x00 = 0x63 ∧ sbox 0x01 = 0x7C ∧ sbox 0x53 = 0xED

/-- 43_mixing.md R125: each byte of MixColumns and of InvMixColumns is the row of its matrix times the byte's column; InvMixColumns undoes
MixColumns, and MixColumns it; the rule's example column. -/
def Obligations.MixColumnsIsInvertible : Prop :=
  (∀ (b : Block) (c : Fin 4),
    (mixColumns b)[4 * c.val] = gfMul 2 b[4 * c.val] ^^^ gfMul 3 b[4 * c.val + 1] ^^^ b[4 * c.val + 2] ^^^ b[4 * c.val + 3] ∧
    (mixColumns b)[4 * c.val + 1] = b[4 * c.val] ^^^ gfMul 2 b[4 * c.val + 1] ^^^ gfMul 3 b[4 * c.val + 2] ^^^ b[4 * c.val + 3] ∧
    (mixColumns b)[4 * c.val + 2] = b[4 * c.val] ^^^ b[4 * c.val + 1] ^^^ gfMul 2 b[4 * c.val + 2] ^^^ gfMul 3 b[4 * c.val + 3] ∧
    (mixColumns b)[4 * c.val + 3] = gfMul 3 b[4 * c.val] ^^^ b[4 * c.val + 1] ^^^ b[4 * c.val + 2] ^^^ gfMul 2 b[4 * c.val + 3]) ∧
  (∀ (b : Block) (c : Fin 4),
    (invMixColumns b)[4 * c.val] =
      gfMul 0x0E b[4 * c.val] ^^^ gfMul 0x0B b[4 * c.val + 1] ^^^ gfMul 0x0D b[4 * c.val + 2] ^^^ gfMul 0x09 b[4 * c.val + 3] ∧
    (invMixColumns b)[4 * c.val + 1] =
      gfMul 0x09 b[4 * c.val] ^^^ gfMul 0x0E b[4 * c.val + 1] ^^^ gfMul 0x0B b[4 * c.val + 2] ^^^ gfMul 0x0D b[4 * c.val + 3] ∧
    (invMixColumns b)[4 * c.val + 2] =
      gfMul 0x0D b[4 * c.val] ^^^ gfMul 0x09 b[4 * c.val + 1] ^^^ gfMul 0x0E b[4 * c.val + 2] ^^^ gfMul 0x0B b[4 * c.val + 3] ∧
    (invMixColumns b)[4 * c.val + 3] =
      gfMul 0x0B b[4 * c.val] ^^^ gfMul 0x0D b[4 * c.val + 1] ^^^ gfMul 0x09 b[4 * c.val + 2] ^^^ gfMul 0x0E b[4 * c.val + 3]) ∧
  (∀ b : Block, invMixColumns (mixColumns b) = b ∧ mixColumns (invMixColumns b) = b) ∧
  mixColumns (blockOfWords 0x455313DB 0 0 0) = blockOfWords 0xBCA14D8E 0 0 0

/-- 43_mixing.md R124, R126 to R128: ShiftRows and InvShiftRows by their block-byte index tables; AddRoundKey is bytewise and its own inverse;
the round and its inverse are built from these layers, SubBytes and ShiftRows commute, and the inverse round undoes the round, both ways, for
every block and key. -/
def Obligations.InverseRoundUndoesTheRound : Prop :=
  ∀ (key b : Block),
    (∀ i : Fin 16,
      (shiftRows b)[i] = b[(#v[0, 5, 10, 15, 4, 9, 14, 3, 8, 13, 2, 7, 12, 1, 6, 11] : Vector (Fin 16) 16)[i]] ∧
      (invShiftRows b)[i] = b[(#v[0, 13, 10, 7, 4, 1, 14, 11, 8, 5, 2, 15, 12, 9, 6, 3] : Vector (Fin 16) 16)[i]] ∧
      (addRoundKey b key)[i] = b[i] ^^^ key[i]) ∧
    addRoundKey (addRoundKey b key) key = b ∧
    mixRound key b = addRoundKey (mixColumns (shiftRows (subBytes b))) key ∧
    shiftRows (subBytes b) = subBytes (shiftRows b) ∧
    invMixRound key b = invSubBytes (invShiftRows (invMixColumns (addRoundKey b key))) ∧
    invMixRound key (mixRound key b) = b ∧ mixRound key (invMixRound key b) = b

/-- 43_mixing.md R130: PERMF applies P1 rounds under the all-zero key to BLK and changes nothing else; a constant block stays constant; the
rule's example. -/
def Obligations.PermfAppliesTheFirstLayer : Prop :=
  EncodingCard .permf 0x00000012 ⟨.permf, 0x00000012, 0xFFFFFFFF, false⟩ (.command .permf []) ∧
  (∀ s : State, exec .permf s = .next { s with blk := Nat.iterate (mixRound (constantBlock 0x00)) s.p1.toNat s.blk }) ∧
  (∀ b : Byte, mixRound (constantBlock 0x00) (constantBlock b) = constantBlock (sbox b)) ∧
  (∀ s : State, s.blk = constantBlock 0x00 →
    (s.p1 = 1 → exec .permf s = .next { s with blk := constantBlock 0x63 }) ∧
    (s.p1 = 2 → exec .permf s = .next { s with blk := constantBlock 0xFB }) ∧
    (s.p1 = 3 → exec .permf s = .next { s with blk := constantBlock 0x0F })) ∧
  (∀ s : State, s.blk = countingBlock → s.p1 = 1 →
    exec .permf s = .next { s with blk := blockOfWords 0x455C6A6A 0x51336D2C 0x615DD9B0 0x5C219C27 })

/-- 43_mixing.md R131: PERMS applies P2 rounds under the all-ones key to BLK and changes nothing else; the rule's corner case and example. -/
def Obligations.PermsAppliesTheSecondLayer : Prop :=
  EncodingCard .perms 0x00000013 ⟨.perms, 0x00000013, 0xFFFFFFFF, false⟩ (.command .perms []) ∧
  (∀ s : State, exec .perms s = .next { s with blk := Nat.iterate (mixRound (constantBlock 0xFF)) s.p2.toNat s.blk }) ∧
  (∀ s : State, s.blk = constantBlock 0x00 →
    (s.p2 = 1 → exec .perms s = .next { s with blk := constantBlock 0x9C }) ∧
    (s.p2 = 2 → exec .perms s = .next { s with blk := constantBlock 0x21 }) ∧
    (s.p2 = 3 → exec .perms s = .next { s with blk := constantBlock 0x02 })) ∧
  (∀ s : State, s.blk = countingBlock → s.p2 = 1 →
    exec .perms s = .next { s with blk := blockOfWords 0xBAA39595 0xAECC92D3 0x9EA2264F 0xA3DE63D8 })

/-- 43_mixing.md R132: IPERMF applies P1 inverse rounds under the all-zero key to BLK and changes nothing else, and PERMF then IPERMF
restores the state, for every BLK and P1; the rule's example. -/
def Obligations.IpermfUndoesTheFirstLayer : Prop :=
  EncodingCard .ipermf 0x00000014 ⟨.ipermf, 0x00000014, 0xFFFFFFFF, false⟩ (.command .ipermf []) ∧
  (∀ s : State, exec .ipermf s = .next { s with blk := Nat.iterate (invMixRound (constantBlock 0x00)) s.p1.toNat s.blk }) ∧
  (∀ s : State, runCommands [.permf, .ipermf] s = .next s) ∧
  (∀ s : State, s.blk = countingBlock → s.p1 = 1 →
    exec .ipermf s = .next { s with blk := blockOfWords 0x4052D5A3 0x3630FBD7 0x09BF9E6A 0xF38138A5 })

/-- 43_mixing.md R133: IPERMS applies P2 inverse rounds under the all-ones key to BLK and changes nothing else, and PERMS then IPERMS
restores the state, for every BLK and P2; the rule's example. -/
def Obligations.IpermsUndoesTheSecondLayer : Prop :=
  EncodingCard .iperms 0x00000015 ⟨.iperms, 0x00000015, 0xFFFFFFFF, false⟩ (.command .iperms []) ∧
  (∀ s : State, exec .iperms s = .next { s with blk := Nat.iterate (invMixRound (constantBlock 0xFF)) s.p2.toNat s.blk }) ∧
  (∀ s : State, runCommands [.perms, .iperms] s = .next s) ∧
  (∀ s : State, s.blk = countingBlock → s.p2 = 1 →
    exec .iperms s = .next { s with blk := blockOfWords 0xD67D5577 0x1463172B 0x0C26BA21 0x047EE169 })

/-- 43_mixing.md R134: the mixing commands write only BLK, and what they write depends on BLK and the synthesis parameters alone. -/
def Obligations.MixingCommandsWriteOnlyBlk : Prop :=
  ∀ (i : Instr) (s : State), family i = .mixing →
    ∃ b : Block, exec i s = .next { s with blk := b } ∧
      ∀ s' : State, s'.blk = s.blk → s'.p1 = s.p1 → s'.p2 = s.p2 → exec i s' = .next { s' with blk := b }

/-! ## Pipeline commands -/

/-- 44_pipeline.md R141: ENC on a committed slot puts BLK through the encrypt pipeline of R140 and changes nothing else; with VALID = 0 it
raises TABLE_INVALID and BLK stays; the rule's corner case and example. -/
def Obligations.EncRunsTheEncryptPipeline : Prop :=
  ∀ (k : Slot) (s : State),
    EncodingCard (.enc k) (0#6 ++ slotField k ++ 0#8 ++ 0#8 ++ 0x18#8) ⟨.enc, 0x00000018, 0xFCFFFFFF, true⟩
      (.command .enc [slotArg k]) ∧
    ((s.slot k).valid = false → exec (.enc k) s = .next (reported 3 (encode (.enc k)) s)) ∧
    ((s.slot k).valid = true → exec (.enc k) s = .next { s with
      blk := subLayer (s.slot k) (permSecond s.p2 (subLayer (s.slot k) (permFirst s.p1 (subLayer (s.slot k) s.blk)))) }) ∧
    (s.slot k = identitySlot → ∀ b : Byte, s.blk = constantBlock b →
      ∃ c : Byte, exec (.enc k) s = .next { s with blk := constantBlock c }) ∧
    (s.slot .s0 = identitySlot → s.p1 = 1 → s.p2 = 1 → s.blk = textBlock →
      exec (.enc .s0) s = .next { s with blk := blockOfWords 0x1E480EE5 0x06F801B1 0x19CCA720 0x9094B240 })

/-- 44_pipeline.md R142: DEC on a committed slot puts BLK through the decrypt pipeline of R140 and changes nothing else; with VALID = 0 it
raises TABLE_INVALID and BLK stays; the rule's example. -/
def Obligations.DecRunsTheDecryptPipeline : Prop :=
  ∀ (k : Slot) (s : State),
    EncodingCard (.dec k) (0#6 ++ slotField k ++ 0#8 ++ 0#8 ++ 0x19#8) ⟨.dec, 0x00000019, 0xFCFFFFFF, true⟩
      (.command .dec [slotArg k]) ∧
    ((s.slot k).valid = false → exec (.dec k) s = .next (reported 3 (encode (.dec k)) s)) ∧
    ((s.slot k).valid = true → exec (.dec k) s = .next { s with
      blk := invSubLayer (s.slot k)
        (invPermFirst s.p1 (invSubLayer (s.slot k) (invPermSecond s.p2 (invSubLayer (s.slot k) s.blk)))) } ∧
      exec (.dec k) s = runCommands [.isub k, .iperms, .isub k, .ipermf, .isub k] s) ∧
    (s.slot .s0 = identitySlot → s.p1 = 1 → s.p2 = 1 →
      s.blk = blockOfWords 0x1E480EE5 0x06F801B1 0x19CCA720 0x9094B240 →
      exec (.dec .s0) s = .next { s with blk := textBlock })

/-- 44_pipeline.md R143: when no error is raised, ENC equals SUB, PERMF, SUB, PERMS, SUB, and DEC equals ISUB, IPERMS, ISUB, IPERMF, ISUB. -/
def Obligations.PipelinesEqualTheirFiveCommands : Prop :=
  ∀ (k : Slot) (s : State), (s.slot k).valid = true →
    exec (.enc k) s = runCommands [.sub k, .permf, .sub k, .perms, .sub k] s ∧
    exec (.dec k) s = runCommands [.isub k, .iperms, .isub k, .ipermf, .isub k] s ∧
    ∃ t u : State, exec (.enc k) s = .next t ∧ exec (.dec k) s = .next u

/-- 44_pipeline.md R144: for every block, every committed slot that keeps R30 and every P1 and P2, ENC then DEC restores BLK, and so does DEC
then ENC, with any commands in between that write neither BLK nor that slot. -/
def Obligations.EncryptDecryptRoundTrip : Prop :=
  ∀ (k : Slot) (s : State) (between : List Instr), (s.slot k).valid = true → (s.slot k).Coherent →
    (∀ i ∈ between, sparesBlockAndSlot k i = true) →
      runCommands [.enc k, .dec k] s = .next s ∧ runCommands [.dec k, .enc k] s = .next s ∧
      (∃ t : State, runCommands ([.enc k] ++ between ++ [.dec k]) s = .next t ∧ t.blk = s.blk) ∧
      (∃ t : State, runCommands ([.dec k] ++ between ++ [.enc k]) s = .next t ∧ t.blk = s.blk)

/-! ## Errors -/

/-- 60_exceptions.md R160, R162, R164: a word written to CMD is checked by decode first and then by its command's own check; the first check
that fails raises its code, recorded with the word when the report is clear and not recorded otherwise, and nothing else changes; a command
whose checks pass leaves the report alone, but for CLRERR. -/
def Obligations.ErrorsArePreciseAndFirstIsKept : Prop :=
  ErrCode.illegalCmd.code = 1 ∧ ErrCode.invZero.code = 2 ∧ ErrCode.tableInvalid.code = 3 ∧ ErrCode.notBijective.code = 4 ∧
  ∀ (w : Word) (s : State),
    (decode w = none → issueCommand w s = .next (reported 1 w s)) ∧
    (∀ (i : Instr) (c : ErrCode), decode w = some i → commandError i s = some c →
      issueCommand w s = .next (reported c.code w s)) ∧
    (∀ i : Instr, decode w = some i → commandError i s = none →
      ∃ t : State, issueCommand w s = .next t ∧ (i ≠ .clrerr → t.err = s.err ∧ t.errcmd = s.errcmd))

/-- 10_state.md R32, 60_exceptions.md R163: a command does the same whatever the report holds; and while ERR is not 0 no command but CLRERR
changes the report. -/
def Obligations.CommandsIgnoreTheErrorReport : Prop :=
  ∀ (i : Instr) (s : State) (e : BitVec 4) (w : Word),
    ∃ t t' : State, exec i s = .next t ∧ exec i { s with err := e, errcmd := w } = .next t' ∧
      { t' with err := t.err, errcmd := t.errcmd } = t ∧
      (s.err ≠ 0 → i ≠ .clrerr → t.err = s.err ∧ t.errcmd = s.errcmd)

/-- 60_exceptions.md R163: in a run of words written to CMD, legal or not, with no CLRERR among them, ERR = 0 at the end says that no word of
the run raised an error: each decodes, and its command's check passes. -/
def Obligations.ClearReportAtTheEndMeansNoErrorRaised : Prop :=
  ∀ (before after : List Word) (w : Word) (s t u : State), (∀ v ∈ before ++ w :: after, decode v ≠ some .clrerr) →
    runWords (before ++ w :: after) s = .next t → t.NoError → runWords before s = .next u →
      s.NoError ∧ u.NoError ∧ ∃ i : Instr, decode w = some i ∧ commandError i u = none

/-- 10_state.md R25, 60_exceptions.md R160: from a state whose report is legal, every step but a loss of power leaves a legal report: ERR is 0
with ERRCMD 0, or one of the codes 1 to 4 with a word in ERRCMD that raises it; codes 5 to 15 are never produced. A loss of power loses the
report (R174), but a block that performs accesses has a legal one: that too every step keeps, whatever the step is. This reading of R174 is the
model's (assumption log 8). -/
def Obligations.StepKeepsTheErrorRecord : Prop :=
  ∀ s t : State, step s = .next t →
    (s.ErrorRecord → ¬ losesPower s → t.ErrorRecord ∧ t.err.toNat ≤ 4) ∧
    ((s.phase = .running → s.ErrorRecord) → t.phase = .running → t.ErrorRecord ∧ t.err.toNat ≤ 4)

/-! ## Registers and the bus -/

/-- 20_memory.md R45, 10_state.md R23: when the next event is a write of `w` to CMD and `w` decodes to `i`, a step of the running block is `exec i` on
the state without that event. -/
def Obligations.StepRunsTheDecodedCommand : Prop :=
  ∀ (s : State) (w : Word) (i : Instr) (rest : List Event), s.phase = .running →
    s.events = .access (.write 0x08 (.b32 w)) :: rest → decode w = some i → step s = exec i { s with events := rest }

/-- 10_state.md R20, 20_memory.md R46: a read of any aligned offset of the window returns what the register map says and has no side effect. -/
def Obligations.ReadsFollowTheRegisterMap : Prop :=
  ∀ (s : State) (off : Nat) (rest : List Event), s.phase = .running → off < 64 → off % 4 = 0 →
    s.events = .access (.read off .w32) :: rest →
      step s = .next { s with events := rest, answers := mapValue off s :: s.answers }

/-- 10_state.md R20, R27, R28, 20_memory.md R46: a write of BLKk replaces the four bytes of that word alone, and a write of any other offset than
CMD and BLKk changes nothing. -/
def Obligations.WritesHaveOnlyTheirEffect : Prop :=
  ∀ (s : State) (off : Nat) (v : Word) (rest : List Event), s.phase = .running → off < 64 → off % 4 = 0 →
    s.events = .access (.write off (.b32 v)) :: rest →
      (off ≠ 0x08 → ¬ (0x20 ≤ off ∧ off < 0x30) → step s = .next { s with events := rest }) ∧
      (0x20 ≤ off → off < 0x30 → ∃ t : State, step s = .next t ∧
        (∀ i : Fin 16, t.blk[i] =
          if 4 * (i.val / 4) = off - 0x20 then v.extractLsb' (8 * (i.val % 4)) 8 else s.blk[i]) ∧
        { t with blk := s.blk } = { s with events := rest } ∧ mapValue off t = v)

/-- 10_state.md R22: the fields of CFG; a write is ignored; it never changes. -/
def Obligations.CfgReadsTheParametersAndNeverChanges : Prop :=
  ∀ s : State,
    (readReg .cfg s).extractLsb' 0 8 = s.p1 ∧ (readReg .cfg s).extractLsb' 8 8 = s.p2 ∧
    (readReg .cfg s).extractLsb' 16 2 = 3#2 ∧ (readReg .cfg s).extractLsb' 18 1 = 0#1 ∧
    (readReg .cfg s).extractLsb' 19 1 = 0#1 ∧ (readReg .cfg s).extractLsb' 20 12 = 0#12 ∧
    (∀ v : Word, writeReg .cfg v s = .next s) ∧
    ∀ t : State, step s = .next t → readReg .cfg t = readReg .cfg s ∧ (s.RoundsLegal → t.RoundsLegal)

/-- 10_state.md R24: the fields of STATUS; a bus write is ignored; ERR, once set, is changed only by CLRERR or reset, and VALIDs only by table
commands or reset, which clears both. That a loss of power (60_exceptions.md R174) may change them too is the model's reading (assumption log 8);
that a reset (70_reset_and_hazards.md R180) changes them when it ends, not when it is asserted, is its choice (assumption log 7). -/
def Obligations.StatusFieldsChangeOnlyAsListed : Prop :=
  ∀ s : State,
    (readReg .status s).extractLsb' 0 4 = s.err ∧ (readReg .status s).extractLsb' 4 4 = 0#4 ∧
    (∀ k : Slot, (readReg .status s).getLsbD (8 + (slotIndex k).val) = (s.slot k).valid) ∧
    (readReg .status s).extractLsb' 11 21 = 0#21 ∧
    (∀ v : Word, writeReg .status v s = .next s) ∧
    (releaseReset s).err = 0 ∧ (∀ k : Slot, ((releaseReset s).slot k).valid = false) ∧
    ∀ t : State, step s = .next t →
      (s.err ≠ 0 → t.err ≠ s.err → issues s .clrerr ∨ endsReset s ∨ losesPower s) ∧
      (∀ k : Slot, (t.slot k).valid ≠ (s.slot k).valid →
        (∃ i, issues s i ∧ family i = .table ∧ slotOperand i = some k) ∨ endsReset s ∨ losesPower s)

/-- 10_state.md R25: ERRCMD holds the word whose execution set ERR from 0; it is written in that same step, and otherwise changed only by CLRERR
and reset; a bus write is ignored. That a loss of power (60_exceptions.md R174) may change ERR and ERRCMD too is the model's reading (assumption
log 8); that a reset (70_reset_and_hazards.md R180) changes ERRCMD when it ends, not when it is asserted, is its choice (assumption log 7). -/
def Obligations.ErrcmdHoldsTheWordThatSetErr : Prop :=
  ∀ s : State,
    readReg .errcmd s = s.errcmd ∧ (∀ v : Word, writeReg .errcmd v s = .next s) ∧
    (∀ t : State, exec .clrerr s = .next t → t.errcmd = 0) ∧ (releaseReset s).errcmd = 0 ∧
    ∀ t : State, step s = .next t →
      (s.err = 0 → t.err ≠ 0 → losesPower s ∨ ∃ w rest, s.events = .access (.write 0x08 (.b32 w)) :: rest ∧ t.errcmd = w) ∧
      (t.errcmd ≠ s.errcmd → (s.err = 0 ∧ t.err ≠ 0) ∨ issues s .clrerr ∨ endsReset s ∨ losesPower s)

/-- 10_state.md R26: RES reads as a byte; only a successful GADD, GMUL, GINV, GDBL, TRD or TIRD writes it; a bus write is ignored. -/
def Obligations.ResIsWrittenOnlyByResultCommands : Prop :=
  ∀ s : State,
    (readReg .res s).extractLsb' 0 8 = s.res ∧ (readReg .res s).extractLsb' 8 24 = 0#24 ∧
    (∀ v : Word, writeReg .res v s = .next s) ∧
    ∀ (i : Instr) (t : State), exec i s = .next t → t.res ≠ s.res →
      commandError i s = none ∧
        (family i = .field ∨ ∃ k a, i = .trd k a ∨ i = .tird k a)

/-- 10_state.md R27: BLKk holds block bytes 4k to 4k+3, byte 4k in bits 7:0; a write of it reads back and leaves the other words. -/
def Obligations.BlkWordsPackLittleEndian : Prop :=
  ∀ (b : Block) (k : Fin 4) (v : Word),
    (blkWord b k).extractLsb' 0 8 = b[4 * k.val] ∧ (blkWord b k).extractLsb' 8 8 = b[4 * k.val + 1] ∧
    (blkWord b k).extractLsb' 16 8 = b[4 * k.val + 2] ∧ (blkWord b k).extractLsb' 24 8 = b[4 * k.val + 3] ∧
    blkWord (setBlkWord b k v) k = v ∧ ∀ j : Fin 4, j ≠ k → blkWord (setBlkWord b k v) j = blkWord b j

/-- 20_memory.md R42, 70_reset_and_hazards.md R187: the run faults exactly at an access inside the window that is not 32 bits wide or not
aligned; every other access inside the window of the running block completes. -/
def Obligations.OnlyIllegalAccessesGetABusError : Prop :=
  ∀ (s : State) (a : Access) (rest : List Event), s.phase = .running → s.events = .access a :: rest → 0 ≤ a.off → a.off < 64 →
    ((isWordAccess a = false ∨ a.off % 4 ≠ 0) → step s = .fault .busError) ∧
    (isWordAccess a = true → a.off % 4 = 0 → ∃ t : State, step s = .next t ∧ t.events = rest)

/-- Every stop of the machine: a fault is a bus error of an illegal access inside the window (20_memory.md R42), and a refusal is an access outside
the window (R41), or while reset is asserted (70_reset_and_hazards.md R180), or before the reset that follows a loss of power
(60_exceptions.md R174). No command stops the machine. The refusals' names are the model's (assumption log 2, 7, 8). -/
def Obligations.MachineStopsOnlyAtForbiddenAccesses : Prop :=
  (∀ (i : Instr) (s : State), ∃ t : State, exec i s = .next t) ∧
  (∀ (s : State) (f : Fault), step s = .fault f →
    ∃ a rest, s.phase = .running ∧ s.events = .access a :: rest ∧ 0 ≤ a.off ∧ a.off < 64 ∧
      (isWordAccess a = false ∨ a.off % 4 ≠ 0)) ∧
  (∀ (s : State) (r : Refusal), step s = .refused r →
    ∃ a rest, s.events = .access a :: rest ∧
      ((r = .outsideWindow ∧ s.phase = .running ∧ ¬ (0 ≤ a.off ∧ a.off < 64)) ∨
        (r = .accessDuringReset ∧ s.phase = .inReset) ∨ (r = .accessBeforeReset ∧ s.phase = .powerLost)))

/-- 20_memory.md R41: an access at bus address a selects the window exactly when BASE <= a < BASE + 64, and then its offset is a - BASE; BASE is a
multiple of 64. An access outside is refused by the model under a name of its own (assumption log 2). -/
def Obligations.AddressDecodeSelectsTheWindow : Prop :=
  Config.base % 64 = 0 ∧
  ∀ (addr : Nat) (width : Width) (data : WriteData),
    (inWindow (readAt addr width).off = true ↔ Config.base ≤ addr ∧ addr < Config.base + 64) ∧
    (inWindow (writeAt addr data).off = true ↔ Config.base ≤ addr ∧ addr < Config.base + 64) ∧
    (Config.base ≤ addr → (readAt addr width).off = ((addr - Config.base : Nat) : Int) ∧
      (writeAt addr data).off = ((addr - Config.base : Nat) : Int)) ∧
    (¬ (Config.base ≤ addr ∧ addr < Config.base + 64) → ∀ s : State,
      performAccess (readAt addr width) s = .refused .outsideWindow ∧
      performAccess (writeAt addr data) s = .refused .outsideWindow)

/-- 20_memory.md R50, R47: performing a word write of BLKk and then a command, the command sees the write; a read that follows a command sees every effect
of it. Two accesses at the head of the event list are performed in that order. -/
def Obligations.AccessesArePerformedInOrder : Prop :=
  ∀ (s : State) (w v : Word) (i : Instr) (k : Fin 4) (off : Nat) (rest : List Event), s.phase = .running → decode w = some i →
    off < 64 → off % 4 = 0 →
      s.events = [.access (.write ((0x20 + 4 * k.val : Nat) : Int) (.b32 v)), .access (.write 0x08 (.b32 w)),
        .access (.read off .w32)] ++ rest →
      ∃ t : State, exec i { s with blk := setBlkWord s.blk k v, events := .access (.read off .w32) :: rest } = .next t ∧
        Sys2Proof.core.run 3 s = .next { t with events := rest, answers := mapValue off t :: t.answers }

/-! ## The tables' invariant, reset and power -/

/-- 10_state.md R30: every step but a loss of power keeps the promise of VALID on every slot. A loss of power loses the tables (60_exceptions.md
R174), but in a block that performs accesses the promise holds: that too every step keeps, whatever the step is. A VALID bit becomes 1 only by TIDENT or a TCOMMIT that finds a bijection; TWR
and TSWAP clear it; the promise holds at reset. R30 says at every step: that a loss of power is
the exception, and that the block performs no access between it and a reset, is the model's reading of R174 (assumption log 8). -/
def Obligations.StepKeepsCommittedSlotsCoherent : Prop :=
  (∀ s t : State, step s = .next t →
    (s.Coherent → ¬ losesPower s → t.Coherent) ∧
    ((s.phase = .running → s.Coherent) → t.phase = .running → t.Coherent)) ∧
  (∀ (i : Instr) (k : Slot) (s t : State), exec i s = .next t → (s.slot k).valid = false → (t.slot k).valid = true →
    (i = .tident k ∨ (i = .tcommit k ∧ IsBijection (s.slot k).t)) ∧ (t.slot k).Coherent) ∧
  (∀ (k : Slot) (a b : Byte) (s t : State), exec (.twr k a b) s = .next t ∨ exec (.tswap k a b) s = .next t →
    (t.slot k).valid = false) ∧
  State.reset.Coherent

/-- 70_reset_and_hazards.md R180, 00_scope.md R6: the invariants hold at reset: no slot is committed, so the promise of VALID holds; the error report is
empty; and P1 and P2 are in 1..255. -/
def Obligations.ResetMeetsTheInvariants : Prop :=
  State.reset.Coherent ∧ (∀ k : Slot, (State.reset.slot k).valid = false) ∧ State.reset.ErrorRecord ∧ State.reset.RoundsLegal

/-- 10_state.md R35, 70_reset_and_hazards.md R180: the values every register holds right after reset, in `State.reset` and when the reset
input is released; nothing is said of the table contents. -/
def Obligations.ResetLeavesTheStatedValues : Prop :=
  ∀ s : State, s = State.reset ∨ (∃ u : State, endsReset u ∧ step u = .next s) →
    readOffset 0x00 s = 0x47463853 ∧ readOffset 0x04 s = 0#12 ++ 0#1 ++ 0#1 ++ 3#2 ++ s.p2 ++ s.p1 ∧
    (∀ off ∈ [0x0C, 0x10, 0x14, 0x20, 0x24, 0x28, 0x2C], readOffset off s = 0) ∧
    s.err = 0 ∧ (∀ k : Slot, (s.slot k).valid = false) ∧ s.errcmd = 0 ∧ s.res = 0 ∧ (∀ i : Fin 16, s.blk[i] = 0)

/-- 70_reset_and_hazards.md R180, 60_exceptions.md R174: while the reset input is asserted, and after a loss of power until a reset, no access is
performed; releasing reset gives the reset values and keeps the synthesis parameters, also when power was lost while reset was asserted. Of
the state that a loss of power loses nothing is said: it is free values. How the model orders these events, that it names the refusals, and that it
keeps the fields while reset is asserted, when nothing can read them, are its choices (assumption log 7, 8). -/
def Obligations.ResetAndPowerLossHoldOffAccesses : Prop :=
  ∀ (s : State) (rest : List Event),
    (s.events = .resetLine true :: rest → step s = .next { s with phase := .inReset, events := rest }) ∧
    (s.phase = .inReset → ∀ a, s.events = .access a :: rest → step s = .refused .accessDuringReset) ∧
    (endsReset s → ∃ t : State, step s = .next t ∧ t.p1 = s.p1 ∧ t.p2 = s.p2 ∧ t.phase = .running) ∧
    (s.phase = .running → s.events = .resetLine false :: rest → step s = .next { s with events := rest }) ∧
    (s.events = .powerLoss :: rest → ∃ t : State, step s = .next t ∧ t.p1 = s.p1 ∧ t.p2 = s.p2 ∧ t.events = rest ∧
      t.answers = s.answers ∧ t.phase = (if s.phase = .inReset then .inReset else .powerLost)) ∧
    (∀ rest', s.phase = .inReset → rest = .resetLine false :: rest' → s.events = .powerLoss :: rest →
      ∃ t u : State, step s = .next t ∧ endsReset t ∧ step t = .next u ∧ u.phase = .running ∧ u.err = 0 ∧ u.errcmd = 0 ∧ u.res = 0 ∧
        (∀ i : Fin 16, u.blk[i] = 0) ∧ ∀ k : Slot, (u.slot k).valid = false) ∧
    (s.phase = .powerLost → ∀ a, s.events = .access a :: rest → step s = .refused .accessBeforeReset) ∧
    (s.phase = .powerLost → ∀ t : State, step s = .next t → t.phase ≠ .running)

/-- 70_reset_and_hazards.md R182: right after reset TIRD, SUB, ISUB, ENC and DEC raise TABLE_INVALID on every slot; the field and mixing commands
work at once; and an uncommitted slot becomes usable only by TIDENT or TCOMMIT. -/
def Obligations.AfterResetOnlyLoadedSlotsWork : Prop :=
  ∀ s : State, s = State.reset ∨ (∃ u : State, s = releaseReset u) →
    (∀ i : Instr, needsCommitted i = true → exec i s = .next { s with err := 3, errcmd := encode i }) ∧
    (∀ i : Instr, family i = .field ∨ family i = .mixing → i ≠ .ginv 0 →
      ∃ t : State, exec i s = .next t ∧ t.err = 0 ∧ commandError i s = none) ∧
    ∀ (is : List Instr) (t : State) (k : Slot) (i : Instr), (∀ d ∈ is, d ≠ .tident k ∧ d ≠ .tcommit k) →
      runCommands is s = .next t → needsCommitted i = true → slotOperand i = some k →
        commandError i t = some .tableInvalid
end

