-- ==== Sys2Proof/Laws/State.lean ====
section
/-! SUPPORT. What each update of the state does to each field, one lemma per field per update, so that no proof unfolds a record
update; and what it does to a slot. -/

namespace Sys2Proof.Machine

@[simp] theorem getElem_tabulate {α : Type} {n : Nat} (f : Fin n → α) (i : Nat) (h : i < n) :
    (tabulate f)[i] = f ⟨i, h⟩ := by
  simp [tabulate]

/-! ### State.setRes -/

@[simp] theorem setRes_p1 (v : Byte) (s : State) : (s.setRes v).p1 = s.p1 := rfl
@[simp] theorem setRes_p2 (v : Byte) (s : State) : (s.setRes v).p2 = s.p2 := rfl
@[simp] theorem setRes_err (v : Byte) (s : State) : (s.setRes v).err = s.err := rfl
@[simp] theorem setRes_errcmd (v : Byte) (s : State) : (s.setRes v).errcmd = s.errcmd := rfl
@[simp] theorem setRes_res (v : Byte) (s : State) : (s.setRes v).res = v := rfl
@[simp] theorem setRes_blk (v : Byte) (s : State) : (s.setRes v).blk = s.blk := rfl
@[simp] theorem setRes_slots (v : Byte) (s : State) : (s.setRes v).slots = s.slots := rfl
@[simp] theorem setRes_phase (v : Byte) (s : State) : (s.setRes v).phase = s.phase := rfl
@[simp] theorem setRes_draws (v : Byte) (s : State) : (s.setRes v).draws = s.draws := rfl
@[simp] theorem setRes_events (v : Byte) (s : State) : (s.setRes v).events = s.events := rfl
@[simp] theorem setRes_answers (v : Byte) (s : State) : (s.setRes v).answers = s.answers := rfl

/-! ### State.setBlk -/

@[simp] theorem setBlk_p1 (b : Block) (s : State) : (s.setBlk b).p1 = s.p1 := rfl
@[simp] theorem setBlk_p2 (b : Block) (s : State) : (s.setBlk b).p2 = s.p2 := rfl
@[simp] theorem setBlk_err (b : Block) (s : State) : (s.setBlk b).err = s.err := rfl
@[simp] theorem setBlk_errcmd (b : Block) (s : State) : (s.setBlk b).errcmd = s.errcmd := rfl
@[simp] theorem setBlk_res (b : Block) (s : State) : (s.setBlk b).res = s.res := rfl
@[simp] theorem setBlk_blk (b : Block) (s : State) : (s.setBlk b).blk = b := rfl
@[simp] theorem setBlk_slots (b : Block) (s : State) : (s.setBlk b).slots = s.slots := rfl
@[simp] theorem setBlk_phase (b : Block) (s : State) : (s.setBlk b).phase = s.phase := rfl
@[simp] theorem setBlk_draws (b : Block) (s : State) : (s.setBlk b).draws = s.draws := rfl
@[simp] theorem setBlk_events (b : Block) (s : State) : (s.setBlk b).events = s.events := rfl
@[simp] theorem setBlk_answers (b : Block) (s : State) : (s.setBlk b).answers = s.answers := rfl

/-! ### State.setSlot -/

@[simp] theorem setSlot_p1 (k : Slot) (c : SlotState) (s : State) : (s.setSlot k c).p1 = s.p1 := rfl
@[simp] theorem setSlot_p2 (k : Slot) (c : SlotState) (s : State) : (s.setSlot k c).p2 = s.p2 := rfl
@[simp] theorem setSlot_err (k : Slot) (c : SlotState) (s : State) : (s.setSlot k c).err = s.err := rfl
@[simp] theorem setSlot_errcmd (k : Slot) (c : SlotState) (s : State) : (s.setSlot k c).errcmd = s.errcmd := rfl
@[simp] theorem setSlot_res (k : Slot) (c : SlotState) (s : State) : (s.setSlot k c).res = s.res := rfl
@[simp] theorem setSlot_blk (k : Slot) (c : SlotState) (s : State) : (s.setSlot k c).blk = s.blk := rfl
@[simp] theorem setSlot_slots (k : Slot) (c : SlotState) (s : State) : (s.setSlot k c).slots = s.slots.set (slotIndex k).val c (slotIndex k).isLt := rfl
@[simp] theorem setSlot_phase (k : Slot) (c : SlotState) (s : State) : (s.setSlot k c).phase = s.phase := rfl
@[simp] theorem setSlot_draws (k : Slot) (c : SlotState) (s : State) : (s.setSlot k c).draws = s.draws := rfl
@[simp] theorem setSlot_events (k : Slot) (c : SlotState) (s : State) : (s.setSlot k c).events = s.events := rfl
@[simp] theorem setSlot_answers (k : Slot) (c : SlotState) (s : State) : (s.setSlot k c).answers = s.answers := rfl

/-! ### clearError -/

@[simp] theorem clearError_p1 (s : State) : (clearError s).p1 = s.p1 := rfl
@[simp] theorem clearError_p2 (s : State) : (clearError s).p2 = s.p2 := rfl
@[simp] theorem clearError_err (s : State) : (clearError s).err = 0 := rfl
@[simp] theorem clearError_errcmd (s : State) : (clearError s).errcmd = 0 := rfl
@[simp] theorem clearError_res (s : State) : (clearError s).res = s.res := rfl
@[simp] theorem clearError_blk (s : State) : (clearError s).blk = s.blk := rfl
@[simp] theorem clearError_slots (s : State) : (clearError s).slots = s.slots := rfl
@[simp] theorem clearError_phase (s : State) : (clearError s).phase = s.phase := rfl
@[simp] theorem clearError_draws (s : State) : (clearError s).draws = s.draws := rfl
@[simp] theorem clearError_events (s : State) : (clearError s).events = s.events := rfl
@[simp] theorem clearError_answers (s : State) : (clearError s).answers = s.answers := rfl

/-! ### answer -/

@[simp] theorem answer_p1 (v : Word) (s : State) : (answer v s).p1 = s.p1 := rfl
@[simp] theorem answer_p2 (v : Word) (s : State) : (answer v s).p2 = s.p2 := rfl
@[simp] theorem answer_err (v : Word) (s : State) : (answer v s).err = s.err := rfl
@[simp] theorem answer_errcmd (v : Word) (s : State) : (answer v s).errcmd = s.errcmd := rfl
@[simp] theorem answer_res (v : Word) (s : State) : (answer v s).res = s.res := rfl
@[simp] theorem answer_blk (v : Word) (s : State) : (answer v s).blk = s.blk := rfl
@[simp] theorem answer_slots (v : Word) (s : State) : (answer v s).slots = s.slots := rfl
@[simp] theorem answer_phase (v : Word) (s : State) : (answer v s).phase = s.phase := rfl
@[simp] theorem answer_draws (v : Word) (s : State) : (answer v s).draws = s.draws := rfl
@[simp] theorem answer_events (v : Word) (s : State) : (answer v s).events = s.events := rfl
@[simp] theorem answer_answers (v : Word) (s : State) : (answer v s).answers = v :: s.answers := rfl

/-! ### losePower -/

@[simp] theorem losePower_p1 (s : State) : (losePower s).p1 = s.p1 := rfl
@[simp] theorem losePower_p2 (s : State) : (losePower s).p2 = s.p2 := rfl
@[simp] theorem losePower_err (s : State) : (losePower s).err = Config.lostErr s.draws := rfl
@[simp] theorem losePower_errcmd (s : State) : (losePower s).errcmd = Config.lostErrcmd s.draws := rfl
@[simp] theorem losePower_res (s : State) : (losePower s).res = Config.lostRes s.draws := rfl
@[simp] theorem losePower_blk (s : State) : (losePower s).blk = tabulate (fun i => Config.lostBlkByte s.draws i.val) := rfl
@[simp] theorem losePower_slots (s : State) : (losePower s).slots = tabulate (fun k => lostSlot s.draws k.val) := rfl
@[simp] theorem losePower_phase (s : State) : (losePower s).phase = s.phase.afterPowerLoss := rfl
@[simp] theorem losePower_draws (s : State) : (losePower s).draws = s.draws + 1 := rfl
@[simp] theorem losePower_events (s : State) : (losePower s).events = s.events := rfl
@[simp] theorem losePower_answers (s : State) : (losePower s).answers = s.answers := rfl

/-! ### releaseReset -/

@[simp] theorem releaseReset_p1 (s : State) : (releaseReset s).p1 = s.p1 := rfl
@[simp] theorem releaseReset_p2 (s : State) : (releaseReset s).p2 = s.p2 := rfl
@[simp] theorem releaseReset_err (s : State) : (releaseReset s).err = 0 := rfl
@[simp] theorem releaseReset_errcmd (s : State) : (releaseReset s).errcmd = 0 := rfl
@[simp] theorem releaseReset_res (s : State) : (releaseReset s).res = 0 := rfl
@[simp] theorem releaseReset_blk (s : State) : (releaseReset s).blk = tabulate (fun _ => 0) := rfl
@[simp] theorem releaseReset_slots (s : State) : (releaseReset s).slots = tabulate (fun k => resetSlot s.draws k.val s.slots[k]) := rfl
@[simp] theorem releaseReset_phase (s : State) : (releaseReset s).phase = .running := rfl
@[simp] theorem releaseReset_draws (s : State) : (releaseReset s).draws = s.draws + 1 := rfl
@[simp] theorem releaseReset_events (s : State) : (releaseReset s).events = s.events := rfl
@[simp] theorem releaseReset_answers (s : State) : (releaseReset s).answers = s.answers := rfl

/-! ### raiseError -/

/-- Raising an error when none is recorded (60_exceptions.md R162). -/
theorem raiseError_of_clear (code : ErrCode) (cmd : Word) {s : State} (h : s.err = 0) :
    raiseError code cmd s = { s with err := code.code, errcmd := cmd } := by
  simp [raiseError, h]

/-- Raising an error when one is recorded (60_exceptions.md R162). -/
theorem raiseError_of_set (code : ErrCode) (cmd : Word) {s : State} (h : s.err ≠ 0) : raiseError code cmd s = s :=
  if_neg h

theorem raiseError_err (code : ErrCode) (cmd : Word) (s : State) :
    (raiseError code cmd s).err = if s.err = 0 then code.code else s.err := by
  unfold raiseError; split <;> rfl

theorem raiseError_errcmd (code : ErrCode) (cmd : Word) (s : State) :
    (raiseError code cmd s).errcmd = if s.err = 0 then cmd else s.errcmd := by
  unfold raiseError; split <;> rfl

@[simp] theorem raiseError_p1 (code : ErrCode) (cmd : Word) (s : State) : (raiseError code cmd s).p1 = s.p1 := by
  unfold raiseError; split <;> rfl
@[simp] theorem raiseError_p2 (code : ErrCode) (cmd : Word) (s : State) : (raiseError code cmd s).p2 = s.p2 := by
  unfold raiseError; split <;> rfl
@[simp] theorem raiseError_res (code : ErrCode) (cmd : Word) (s : State) : (raiseError code cmd s).res = s.res := by
  unfold raiseError; split <;> rfl
@[simp] theorem raiseError_blk (code : ErrCode) (cmd : Word) (s : State) : (raiseError code cmd s).blk = s.blk := by
  unfold raiseError; split <;> rfl
@[simp] theorem raiseError_slots (code : ErrCode) (cmd : Word) (s : State) : (raiseError code cmd s).slots = s.slots := by
  unfold raiseError; split <;> rfl
@[simp] theorem raiseError_phase (code : ErrCode) (cmd : Word) (s : State) : (raiseError code cmd s).phase = s.phase := by
  unfold raiseError; split <;> rfl
@[simp] theorem raiseError_draws (code : ErrCode) (cmd : Word) (s : State) : (raiseError code cmd s).draws = s.draws := by
  unfold raiseError; split <;> rfl
@[simp] theorem raiseError_events (code : ErrCode) (cmd : Word) (s : State) : (raiseError code cmd s).events = s.events := by
  unfold raiseError; split <;> rfl
@[simp] theorem raiseError_answers (code : ErrCode) (cmd : Word) (s : State) : (raiseError code cmd s).answers = s.answers := by
  unfold raiseError; split <;> rfl

/-! ### The slot an operand names -/

theorem slotIndex_injective {j k : Slot} (h : slotIndex j = slotIndex k) : j = k := by
  cases j <;> cases k <;> first | rfl | exact absurd h (by decide)

@[simp] theorem slot_setRes (v : Byte) (s : State) (k : Slot) : (s.setRes v).slot k = s.slot k := rfl
@[simp] theorem slot_setBlk (b : Block) (s : State) (k : Slot) : (s.setBlk b).slot k = s.slot k := rfl
@[simp] theorem slot_clearError (s : State) (k : Slot) : (clearError s).slot k = s.slot k := rfl
@[simp] theorem slot_answer (v : Word) (s : State) (k : Slot) : (answer v s).slot k = s.slot k := rfl
@[simp] theorem slot_raiseError (code : ErrCode) (cmd : Word) (s : State) (k : Slot) :
    (raiseError code cmd s).slot k = s.slot k := by
  simp [State.slot]

@[simp] theorem slot_withEvents (s : State) (es : List Event) (k : Slot) :
    ({ s with events := es } : State).slot k = s.slot k := rfl
@[simp] theorem slot_withPhase (s : State) (p : Phase) (k : Slot) : ({ s with phase := p } : State).slot k = s.slot k := rfl

@[simp] theorem slot_setSlot_same (s : State) (k : Slot) (c : SlotState) : (s.setSlot k c).slot k = c := by
  simp [State.slot]

theorem slot_setSlot_other (s : State) {j k : Slot} (c : SlotState) (h : j ≠ k) : (s.setSlot k c).slot j = s.slot j := by
  cases j <;> cases k <;> first | exact absurd rfl h | simp [State.slot, slotIndex]

/-- Writing a slot, then reading any slot (41_tables.md R90). -/
theorem slot_setSlot (s : State) (j k : Slot) (c : SlotState) :
    (s.setSlot k c).slot j = if j = k then c else s.slot j := by
  split
  · next h => rw [h, slot_setSlot_same]
  · next h => exact slot_setSlot_other s c h

theorem slot_releaseReset (s : State) (k : Slot) :
    (releaseReset s).slot k = resetSlot s.draws (slotIndex k).val (s.slot k) := by
  simp [State.slot]

@[simp] theorem slot_losePower (s : State) (k : Slot) : (losePower s).slot k = lostSlot s.draws (slotIndex k).val := by
  simp [State.slot]

/-- A loss of power never leaves a block that accepts accesses (60_exceptions.md R174). -/
theorem losePower_not_running (s : State) : (losePower s).phase ≠ .running := by
  rw [losePower_phase]; cases s.phase <;> simp [Phase.afterPowerLoss]

/-- Everything the reset line can do (70_reset_and_hazards.md R180). -/
theorem setResetLine_cases (asserted : Bool) (s : State) :
    (asserted = true ∧ setResetLine asserted s = { s with phase := .inReset }) ∨
      (asserted = false ∧ s.phase = .inReset ∧ setResetLine asserted s = releaseReset s) ∨
      (asserted = false ∧ s.phase ≠ .inReset ∧ setResetLine asserted s = s) := by
  cases asserted
  · cases h : s.phase <;> simp [setResetLine, h]
  · exact .inl ⟨rfl, by simp [setResetLine]⟩

end Sys2Proof.Machine
end

