-- ==== Sys2Proof/Laws/Operands.lean ====
section
/-! SUPPORT. Reading a table entry or a BLK word after writing one. -/

namespace Sys2Proof.Machine

@[simp] theorem lookup_writeEntry_same (t : ByteTable) (x v : Byte) : lookup (writeEntry t x v) x = v := by
  simp [lookup, writeEntry]

theorem lookup_writeEntry_other (t : ByteTable) {x y : Byte} (v : Byte) (h : y ≠ x) :
    lookup (writeEntry t x v) y = lookup t y := by
  have hn : x.toNat ≠ y.toNat := fun e => h (BitVec.eq_of_toNat_eq e.symm)
  simp [lookup, writeEntry, hn]

/-- Writing an entry, then reading any entry (41_tables.md R92). -/
theorem lookup_writeEntry (t : ByteTable) (x y v : Byte) :
    lookup (writeEntry t x v) y = if y = x then v else lookup t y := by
  split
  · next h => rw [h, lookup_writeEntry_same]
  · next h => exact lookup_writeEntry_other t v h

/-- Two tables that agree on every byte are equal. -/
theorem table_ext {t u : ByteTable} (h : ∀ x : Byte, lookup t x = lookup u x) : t = u := by
  apply Vector.ext
  intro i hi
  have e := h (BitVec.ofNat 8 i)
  have hm : i % 256 = i := Nat.mod_eq_of_lt hi
  simpa [lookup, hm] using e

@[simp] theorem lookup_tabulate (f : Fin 256 → Byte) (x : Byte) : lookup (tabulate f) x = f ⟨x.toNat, x.isLt⟩ := by
  simp [lookup]

/-- The word BLKk after a write of BLKk (10_state.md R27). -/
theorem blkWord_setBlkWord_same (b : Block) (k : Fin 4) (v : Word) : blkWord (setBlkWord b k v) k = v := by
  have hk : ∀ j : Nat, j < 4 → (4 * k.val + j) / 4 = k.val := fun j hj => by omega
  have hr : ∀ j : Nat, j < 4 → (4 * k.val + j) % 4 = j := fun j hj => by omega
  have h0 := hk 0 (by omega)
  have r0 := hr 0 (by omega)
  simp only [Nat.add_zero] at h0 r0
  simp only [blkWord, setBlkWord, getElem_tabulate, h0, r0, hk 1 (by omega), hk 2 (by omega), hk 3 (by omega),
    hr 1 (by omega), hr 2 (by omega), hr 3 (by omega), if_true]
  apply BitVec.eq_of_getLsbD_eq
  intro i hi
  simp only [BitVec.getLsbD_append, BitVec.getLsbD_extractLsb']
  by_cases c1 : i < 8
  · simp [c1]
  · by_cases c2 : i - 8 < 8
    · have : 8 + (i - 8) = i := by omega
      simp [c1, c2, this]
    · by_cases c3 : i - 8 - 8 < 8
      · have : 16 + (i - 8 - 8) = i := by omega
        simp [c1, c2, c3, this]
      · have c4 : i - 8 - 8 - 8 < 8 := by omega
        have : 24 + (i - 8 - 8 - 8) = i := by omega
        simp [c1, c2, c3, c4, this]

/-- The word BLKj after a write of another word BLKk (10_state.md R27). -/
theorem blkWord_setBlkWord_other (b : Block) {j k : Fin 4} (v : Word) (h : j ≠ k) :
    blkWord (setBlkWord b k v) j = blkWord b j := by
  have hne : j.val ≠ k.val := fun e => h (Fin.ext e)
  have hk : ∀ i : Nat, i < 4 → (4 * j.val + i) / 4 ≠ k.val := fun i hi => by omega
  simp [blkWord, setBlkWord, hne, hk 1 (by omega), hk 2 (by omega), hk 3 (by omega)]

end Sys2Proof.Machine
end

