-- ==== Sys2Proof/Laws/Ops.lean ====
section
/-! SUPPORT. What the shared operations can do, said once: raising an error, and a command that needs a committed slot. -/

namespace Sys2Proof.Machine

/-- Everything raising an error can do (60_exceptions.md R162): the report is written if it was clear, else nothing changes. -/
theorem raiseError_cases (code : ErrCode) (cmd : Word) (s : State) :
    (s.err = 0 ∧ raiseError code cmd s = { s with err := code.code, errcmd := cmd }) ∨
      (s.err ≠ 0 ∧ raiseError code cmd s = s) := by
  by_cases h : s.err = 0
  · exact .inl ⟨h, raiseError_of_clear code cmd h⟩
  · exact .inr ⟨h, raiseError_of_set code cmd h⟩

theorem withCommitted_of_valid {k : Slot} {s : State} (cmd : Word) (f : SlotState → State)
    (h : (s.slot k).valid = true) : withCommitted k cmd s f = f (s.slot k) := by
  simp [withCommitted, h]

theorem withCommitted_of_invalid {k : Slot} {s : State} (cmd : Word) (f : SlotState → State)
    (h : (s.slot k).valid = false) : withCommitted k cmd s f = raiseError .tableInvalid cmd s := by
  simp [withCommitted, h]

/-- Everything a command that needs a committed slot can do (60_exceptions.md R160). -/
theorem withCommitted_cases (k : Slot) (cmd : Word) (s : State) (f : SlotState → State) :
    ((s.slot k).valid = true ∧ withCommitted k cmd s f = f (s.slot k)) ∨
      ((s.slot k).valid = false ∧ withCommitted k cmd s f = raiseError .tableInvalid cmd s) := by
  cases h : (s.slot k).valid
  · exact .inr ⟨rfl, withCommitted_of_invalid cmd f h⟩
  · exact .inl ⟨rfl, withCommitted_of_valid cmd f h⟩

end Sys2Proof.Machine
end

