-- ==== Sys2Proof/Laws/Tables.lean ====
section
/-! SUPPORT. What the table operations of 41_tables.md do to an entry: the identity, a swap, the bijection check and the derived
inverse. -/

namespace Sys2Proof.Machine

theorem mem_allBytes (v : Byte) : v ∈ allBytes := by
  refine List.mem_map.2 ⟨v.toNat, List.mem_range.2 v.isLt, ?_⟩
  simp

theorem nodup_allBytes : allBytes.Nodup := by
  refine List.Nodup.map_on ?_ List.nodup_range
  intro a ha b hb h
  have := congrArg BitVec.toNat h
  simp only [List.mem_range, BitVec.toNat_ofNat] at *
  omega

@[simp] theorem lookup_identityTable (x : Byte) : lookup identityTable x = x := by
  simp [identityTable]

/-- An entry after a swap of the entries `i` and `j` (41_tables.md R95). -/
theorem lookup_swapEntries (t : ByteTable) (i j x : Byte) :
    lookup (swapEntries t i j) x = if x = j then lookup t i else if x = i then lookup t j else lookup t x := by
  simp [swapEntries, lookup_writeEntry]

/-- The entries of a table in order are its values at the bytes in order. -/
theorem toList_eq_map_lookup (t : ByteTable) : t.toList = allBytes.map (lookup t) := by
  apply List.ext_getElem
  · simp [allBytes]
  · intro i h1 h2
    have hi : i < 256 := by simpa using h1
    have hm : i % 256 = i := Nat.mod_eq_of_lt hi
    simp [allBytes, lookup, hm]

theorem countValue_eq (t : ByteTable) (v : Byte) :
    countValue t v = allBytes.countP fun x => lookup t x == v := by
  unfold countValue
  rw [toList_eq_map_lookup, List.countP_map]
  apply List.countP_congr
  intro x _
  simp only [Function.comp, Nat.beq_eq, beq_iff_eq]
  constructor
  · exact fun h => BitVec.eq_of_toNat_eq h
  · exact fun h => congrArg _ h

theorem countP_eq_one_iff {α : Type} (p : α → Bool) :
    ∀ l : List α, l.Nodup → (l.countP p = 1 ↔ ∃ x, (x ∈ l ∧ p x = true) ∧ ∀ y, y ∈ l ∧ p y = true → y = x)
  | [], _ => by simp
  | a :: l, h => by
    have ⟨ha, hl⟩ := List.nodup_cons.1 h
    by_cases hp : p a = true
    · rw [List.countP_cons_of_pos hp]
      constructor
      · intro e
        have h0 : l.countP p = 0 := by omega
        rw [List.countP_eq_zero] at h0
        refine ⟨a, ⟨List.mem_cons_self, hp⟩, ?_⟩
        rintro y ⟨hy, hpy⟩
        rcases List.mem_cons.1 hy with rfl | hy
        · rfl
        · exact absurd hpy (h0 y hy)
      · rintro ⟨x, ⟨_, _⟩, hu⟩
        have hax := hu a ⟨List.mem_cons_self, hp⟩
        have : l.countP p = 0 := by
          rw [List.countP_eq_zero]
          intro y hy hpy
          exact ha (((hu y ⟨List.mem_cons_of_mem _ hy, hpy⟩).trans hax.symm) ▸ hy)
        omega
    · rw [List.countP_cons_of_neg hp, countP_eq_one_iff p l hl]
      constructor
      · rintro ⟨x, ⟨hx, hpx⟩, hu⟩
        refine ⟨x, ⟨List.mem_cons_of_mem _ hx, hpx⟩, ?_⟩
        rintro y ⟨hy, hpy⟩
        rcases List.mem_cons.1 hy with rfl | hy
        · exact absurd hpy hp
        · exact hu y ⟨hy, hpy⟩
      · rintro ⟨x, ⟨hx, hpx⟩, hu⟩
        rcases List.mem_cons.1 hx with rfl | hx
        · exact absurd hpx hp
        · exact ⟨x, ⟨hx, hpx⟩, fun y hy => hu y ⟨List.mem_cons_of_mem _ hy.1, hy.2⟩⟩

/-- The check of TCOMMIT is the bijection of 41_tables.md R97: every value stands in exactly one entry. -/
theorem bijective_iff (t : ByteTable) : bijective t = true ↔ ∀ v : Byte, ∃! x : Byte, lookup t x = v := by
  simp only [bijective, List.all_eq_true, Nat.beq_eq]
  constructor
  · intro h v
    have hv := h v (mem_allBytes v)
    rw [countValue_eq, countP_eq_one_iff _ _ nodup_allBytes] at hv
    obtain ⟨x, ⟨_, hx⟩, hu⟩ := hv
    exact ⟨x, by simpa using hx, fun y hy => hu y ⟨mem_allBytes y, by simpa using hy⟩⟩
  · intro h v _
    rw [countValue_eq, countP_eq_one_iff _ _ nodup_allBytes]
    obtain ⟨x, hx, hu⟩ := h v
    exact ⟨x, ⟨mem_allBytes x, by simpa using hx⟩, fun y hy => hu y (by simpa using hy.2)⟩

/-- A fold of entry writes that writes entry `y` from one byte only leaves that byte there. -/
theorem lookup_foldl_writes {f : Byte → Byte} (hf : Function.Injective f) (x : Byte) :
    ∀ (l : List Byte) (u : ByteTable), (x ∈ l ∨ lookup u (f x) = x) →
      lookup (l.foldl (fun u x => writeEntry u (f x) x) u) (f x) = x
  | [], u, h => by
    rcases h with h | h
    · exact absurd h (by simp)
    · exact h
  | a :: l, u, h => by
    apply lookup_foldl_writes hf x l
    by_cases e : x = a
    · right; rw [e, lookup_writeEntry_same]
    · rcases h with h | h
      · left; rcases List.mem_cons.1 h with h | h
        · exact absurd h e
        · exact h
      · right
        rw [lookup_writeEntry_other _ _ (fun he => e (hf he)), h]

/-- The derived inverse undoes an injective table (41_tables.md R97). -/
theorem lookup_deriveInverse {t : ByteTable} (h : Function.Injective (lookup t)) (tinv : ByteTable) (x : Byte) :
    lookup (deriveInverse t tinv) (lookup t x) = x :=
  lookup_foldl_writes h x allBytes tinv (.inl (mem_allBytes x))

theorem injective_of_bijective {t : ByteTable} (h : bijective t = true) : Function.Injective (lookup t) := by
  intro x y e
  obtain ⟨z, _, hu⟩ := (bijective_iff t).1 h (lookup t y)
  exact (hu x e).trans (hu y rfl).symm

/-- Everything TCOMMIT can do to a slot (41_tables.md R97). -/
theorem commitSlot_cases (c : SlotState) :
    (bijective c.t = true ∧ commitSlot c = some { c with tinv := deriveInverse c.t c.tinv, valid := true }) ∨
      (bijective c.t = false ∧ commitSlot c = none) := by
  cases h : bijective c.t
  · exact .inr ⟨rfl, by simp [commitSlot, h]⟩
  · exact .inl ⟨rfl, by simp [commitSlot, h]⟩

end Sys2Proof.Machine
end

