-- ==== Sys2Proof/Laws/Bus.lean ====
section
/-! SUPPORT. What one step does with each kind of event (20_memory.md R42, R45; 70_reset_and_hazards.md R180), and what an access can do. -/

namespace Sys2Proof.Machine

theorem step_idle {s : State} (h : s.events = []) : step s = .next s := by
  simp [step, handleNext, h]

theorem step_event {s : State} {e : Event} {rest : List Event} (h : s.events = e :: rest) :
    step s = handleEvent e { s with events := rest } := by
  simp [step, handleNext, h]

theorem step_access {s : State} {a : Access} {rest : List Event} (hp : s.phase = .running)
    (h : s.events = .access a :: rest) : step s = performAccess a { s with events := rest } := by
  simp [step_event h, handleEvent, hp]

theorem issueCommand_of_decode {w : Word} {i : Instr} (h : decode w = some i) (s : State) : issueCommand w s = exec i s := by
  simp [issueCommand, h]

theorem issueCommand_of_illegal {w : Word} (h : decode w = none) (s : State) :
    issueCommand w s = .next (raiseError .illegalCmd w s) := by
  simp [issueCommand, h]

/-- Everything an access inside the window can do (20_memory.md R42): a read answers, a write writes, anything else is a bus error. -/
theorem windowAccess_cases (a : Access) (s : State) :
    (∃ off o, a = .read off .w32 ∧ alignedOffset off = some o ∧ windowAccess a s = .next (answer (readOffset o s) s)) ∨
      (∃ off o v, a = .write off (.b32 v) ∧ alignedOffset off = some o ∧ windowAccess a s = writeOffset o v s) ∨
      windowAccess a s = .fault .busError := by
  rcases a with ⟨off, w⟩ | ⟨off, d⟩
  · cases h : alignedOffset off with
    | none => exact .inr (.inr (by simp [windowAccess, Access.off, h]))
    | some o =>
      cases w
      case w32 => exact .inl ⟨off, o, rfl, h, by simp [windowAccess, Access.off, h]⟩
      all_goals exact .inr (.inr (by simp [windowAccess]))
  · cases h : alignedOffset off with
    | none => exact .inr (.inr (by simp [windowAccess, Access.off, h]))
    | some o =>
      cases d
      case b32 v => exact .inr (.inl ⟨off, o, v, rfl, h, by simp [windowAccess, Access.off, h]⟩)
      all_goals exact .inr (.inr (by simp [windowAccess]))

/-- Everything a write of an aligned offset can do (10_state.md R20, R23, R27, R28): issue a command, replace a BLK word, or nothing. -/
theorem writeOffset_cases (o : Nat) (v : Word) (s : State) :
    (regAt o = some .cmd ∧ writeOffset o v s = issueCommand v s) ∨
      (∃ k, regAt o = some (.blk k) ∧ writeOffset o v s = .next (s.setBlk (setBlkWord s.blk k v))) ∨
      writeOffset o v s = .next s := by
  cases h : regAt o with
  | none => exact .inr (.inr (by simp [writeOffset, h]))
  | some r =>
    cases r
    case cmd => exact .inl ⟨rfl, by simp [writeOffset, h, writeReg]⟩
    case blk k => exact .inr (.inl ⟨k, rfl, by simp [writeOffset, h, writeReg]⟩)
    all_goals exact .inr (.inr (by simp [writeOffset, h, writeReg]))

/-- A named register stands at its own offset (10_state.md R20). -/
theorem regAt_regOffset (r : Reg) : regAt (regOffset r) = some r := by
  cases r
  case blk k => revert k; decide
  all_goals rfl

/-- Everything a step that answers a next state can do: nothing (no event), a read, a write of CMD, another write, a change of the reset line,
or a loss of power (20_memory.md R45, R46; 70_reset_and_hazards.md R180; 60_exceptions.md R174). -/
theorem step_cases {s t : State} (h : step s = .next t) :
    (s.events = [] ∧ t = s) ∨
    (∃ off rest o, s.events = .access (.read off .w32) :: rest ∧
      t = answer (readOffset o { s with events := rest }) { s with events := rest }) ∨
    (∃ w rest, s.events = .access (.write 0x08 (.b32 w)) :: rest ∧ issueCommand w { s with events := rest } = .next t) ∨
    (∃ rest, (∃ off d, s.events = .access (.write off d) :: rest) ∧
      (t = { s with events := rest } ∨ ∃ b, t = ({ s with events := rest } : State).setBlk b)) ∨
    (∃ b rest, s.events = .resetLine b :: rest ∧ t = setResetLine b { s with events := rest }) ∨
    (∃ rest, s.events = .powerLoss :: rest ∧ t = losePower { s with events := rest }) := by
  cases he : s.events with
  | nil => rw [step_idle he] at h; cases h; exact .inl ⟨rfl, rfl⟩
  | cons e rest =>
    right
    rw [step_event he] at h
    cases e with
    | resetLine b => right; right; right; left; simp [handleEvent] at h; exact ⟨b, rest, rfl, h.symm⟩
    | powerLoss => right; right; right; right; simp [handleEvent] at h; exact ⟨rest, rfl, h.symm⟩
    | access a =>
      simp only [handleEvent] at h
      split at h
      · unfold performAccess at h
        split at h
        · next hw =>
          rcases windowAccess_cases a { s with events := rest } with ⟨off, o, rfl, ho, hh⟩ | ⟨off, o, v, rfl, ho, hh⟩ | hh
          · rw [hh] at h; cases h; left; exact ⟨off, rest, o, rfl, rfl⟩
          · rw [hh] at h
            rcases writeOffset_cases o v { s with events := rest } with ⟨hr, h2⟩ | ⟨k, hr, h2⟩ | h2
            · rw [h2] at h
              right; left
              have hoff : off = 8 := by
                have h8 : o = 8 := by
                  unfold regAt at hr
                  split at hr <;> simp at hr
                  rfl
                simp [alignedOffset] at ho
                simp [inWindow, Access.off] at hw
                omega
              subst hoff
              exact ⟨v, rest, rfl, h⟩
            · rw [h2] at h; cases h; right; right; left; exact ⟨rest, ⟨_, _, rfl⟩, .inr ⟨_, rfl⟩⟩
            · rw [h2] at h; cases h; right; right; left; exact ⟨rest, ⟨_, _, rfl⟩, .inl rfl⟩
          · rw [hh] at h; cases h
        · cases h
      · cases h
      · cases h

end Sys2Proof.Machine
end

