-- ==== Sys2Proof/Laws/Decode.lean ====
section
/-! SUPPORT. The fields of a packed word and the word of its own fields (30_encoding.md R60), and the tables of operation codes and
slots read back. -/

namespace Sys2Proof

theorem fieldsOf_packFields (f : CommandFields) : fieldsOf (packFields f) = f := by
  obtain ⟨opc, fa, fb, sl, rsv⟩ := f
  simp only [fieldsOf, packFields, CommandFields.mk.injEq]
  refine ⟨?_, ?_, ?_, ?_, ?_⟩ <;> apply BitVec.eq_of_getLsbD_eq <;> intro i hi <;>
    simp only [BitVec.getLsbD_extractLsb', BitVec.getLsbD_append, hi, decide_true, Bool.true_and]
  · simp [hi]
  · simp [show ¬ 8 + i < 8 by omega, show 8 + i - 8 = i by omega, hi]
  · simp [show ¬ 16 + i < 8 by omega, show ¬ 16 + i - 8 < 8 by omega, show 16 + i - 8 - 8 = i by omega, hi]
  · simp [show ¬ 24 + i < 8 by omega, show ¬ 24 + i - 8 < 8 by omega, show ¬ 24 + i - 8 - 8 < 8 by omega,
      show 24 + i - 8 - 8 - 8 = i by omega, hi]
  · simp [show ¬ 26 + i < 8 by omega, show ¬ 26 + i - 8 < 8 by omega, show ¬ 26 + i - 8 - 8 < 8 by omega,
      show ¬ 26 + i - 8 - 8 - 8 < 2 by omega, show 26 + i - 8 - 8 - 8 - 2 = i by omega]

theorem packFields_fieldsOf (w : Word) : packFields (fieldsOf w) = w := by
  apply BitVec.eq_of_getLsbD_eq
  intro i hi
  simp only [packFields, fieldsOf, BitVec.getLsbD_append, BitVec.getLsbD_extractLsb']
  by_cases c1 : i < 8
  · simp [c1]
  · by_cases c2 : i - 8 < 8
    · simp [c1, c2, show 8 + (i - 8) = i by omega]
    · by_cases c3 : i - 8 - 8 < 8
      · simp [c1, c2, c3, show 16 + (i - 8 - 8) = i by omega]
      · by_cases c4 : i - 8 - 8 - 8 < 2
        · simp [c1, c2, c3, c4, show 24 + (i - 8 - 8 - 8) = i by omega]
        · simp [c1, c2, c3, c4, show i - 8 - 8 - 8 - 2 < 6 by omega, show 26 + (i - 8 - 8 - 8 - 2) = i by omega]

@[simp] theorem slotOfField_slotField (k : Slot) : slotOfField (slotField k) = some k := by
  cases k <;> rfl

theorem slotField_of_slotOfField {sl : BitVec 2} {k : Slot} (h : slotOfField sl = some k) : slotField k = sl := by
  revert sl k
  intro sl
  revert sl
  decide

@[simp] theorem mnemonicOfOpc_opc (m : Mnemonic) : mnemonicOfOpc m.opc = some m := by
  cases m <;> decide

theorem opc_of_mnemonicOfOpc {c : Byte} {m : Mnemonic} (h : mnemonicOfOpc c = some m) : m.opc = c := by
  have := List.find?_some h
  simpa using this

/-- Everything decode can answer (30_encoding.md R64): the OPC is a listed one, RSV and the unused fields are 0, SL names a slot, and the
command is the one of those fields. -/
theorem decode_eq_some_iff (w : Word) (i : Instr) :
    decode w = some i ↔ ∃ m k, mnemonicOfOpc (fieldsOf w).opc = some m ∧ (fieldsOf w).rsv = 0 ∧
      unusedFieldSet m (fieldsOf w) = false ∧ slotOfField (fieldsOf w).sl = some k ∧
      instrOf m (fieldsOf w).fa (fieldsOf w).fb k = i := by
  unfold decode decodeOrCause decodeFields
  cases mnemonicOfOpc (fieldsOf w).opc with
  | none => simp
  | some m =>
    by_cases hr : (fieldsOf w).rsv = 0
    · cases hu : unusedFieldSet m (fieldsOf w) <;> cases slotOfField (fieldsOf w).sl <;> simp [hr, hu]
    · have hb : ((fieldsOf w).rsv != 0) = true := by simpa using hr
      simp only [hb, if_true, reduceCtorEq, false_iff]
      rintro ⟨_, _, _, h, _⟩
      exact hr h

end Sys2Proof
end

