-- ==== Sys2Proof/Laws/Exec.lean ====
section
/-! SUPPORT. What a command can do, said once over all commands: it raises the error its own check finds, or it makes one of five
updates, each of one field of the state. -/

namespace Sys2Proof.Machine

/-- A command whose check fails raises that error and does nothing else (60_exceptions.md R162). -/
theorem exec_of_error {i : Instr} {s : State} {c : ErrCode} (h : commandError i s = some c) :
    exec i s = .next (raiseError c (encode i) s) := by
  cases i <;>
    simp_all [commandError, tableCheck, exec, execGinv, execTird, execSub, execIsub, execEnc, execDec, execTcommit, gfInv,
      withCommitted, commitSlot]

/-- A command whose check passes makes one update: nothing (NOP), the report cleared (CLRERR), RES written (field commands, TRD, TIRD),
BLK written (substitution, mixing, pipelines), or its own slot written (TWR, TSWAP, TIDENT, TCOMMIT). -/
theorem exec_of_noError {i : Instr} {s : State} (h : commandError i s = none) :
    (i = .nop ∧ exec i s = .next s) ∨
    (i = .clrerr ∧ exec i s = .next (clearError s)) ∨
    ((family i = .field ∨ ∃ k a, i = .trd k a ∨ i = .tird k a) ∧ ∃ r, exec i s = .next (s.setRes r)) ∨
    ((family i = .substitution ∨ family i = .mixing ∨ family i = .pipeline) ∧ ∃ b, exec i s = .next (s.setBlk b)) ∨
    (∃ k c, ((∃ a b, i = .twr k a b ∨ i = .tswap k a b) ∧ c.valid = false ∨
        (i = .tident k ∨ i = .tcommit k) ∧ c.valid = true) ∧
      slotOperand i = some k ∧ exec i s = .next (s.setSlot k c)) := by
  cases i
  case nop => exact .inl ⟨rfl, rfl⟩
  case clrerr => exact .inr (.inl ⟨rfl, rfl⟩)
  case gadd a b => exact .inr (.inr (.inl ⟨.inl rfl, _, rfl⟩))
  case gmul a b => exact .inr (.inr (.inl ⟨.inl rfl, _, rfl⟩))
  case gdbl a => exact .inr (.inr (.inl ⟨.inl rfl, _, rfl⟩))
  case ginv a =>
    have ha : a ≠ 0 := fun e => by simp [commandError, e] at h
    exact .inr (.inr (.inl ⟨.inl rfl, gfSquares 7 a 1, by simp only [exec, execGinv, gfInv, if_neg ha]⟩))
  case trd k a => exact .inr (.inr (.inl ⟨.inr ⟨k, a, .inl rfl⟩, _, rfl⟩))
  case tird k a =>
    have hv : (s.slot k).valid = true := by simpa [commandError, tableCheck] using h
    exact .inr (.inr (.inl ⟨.inr ⟨k, a, .inr rfl⟩, _, by simp [exec, execTird, withCommitted_of_valid _ _ hv]; rfl⟩))
  case permf => exact .inr (.inr (.inr (.inl ⟨.inr (.inl rfl), _, rfl⟩)))
  case perms => exact .inr (.inr (.inr (.inl ⟨.inr (.inl rfl), _, rfl⟩)))
  case ipermf => exact .inr (.inr (.inr (.inl ⟨.inr (.inl rfl), _, rfl⟩)))
  case iperms => exact .inr (.inr (.inr (.inl ⟨.inr (.inl rfl), _, rfl⟩)))
  case sub k =>
    have hv : (s.slot k).valid = true := by simpa [commandError, tableCheck] using h
    exact .inr (.inr (.inr (.inl ⟨.inl rfl, _, by simp [exec, execSub, withCommitted_of_valid _ _ hv]; rfl⟩)))
  case isub k =>
    have hv : (s.slot k).valid = true := by simpa [commandError, tableCheck] using h
    exact .inr (.inr (.inr (.inl ⟨.inl rfl, _, by simp [exec, execIsub, withCommitted_of_valid _ _ hv]; rfl⟩)))
  case enc k =>
    have hv : (s.slot k).valid = true := by simpa [commandError, tableCheck] using h
    exact .inr (.inr (.inr (.inl ⟨.inr (.inr rfl), _, by simp [exec, execEnc, withCommitted_of_valid _ _ hv]; rfl⟩)))
  case dec k =>
    have hv : (s.slot k).valid = true := by simpa [commandError, tableCheck] using h
    exact .inr (.inr (.inr (.inl ⟨.inr (.inr rfl), _, by simp [exec, execDec, withCommitted_of_valid _ _ hv]; rfl⟩)))
  case twr k a b => exact .inr (.inr (.inr (.inr ⟨k, _, .inl ⟨⟨a, b, .inl rfl⟩, rfl⟩, rfl, rfl⟩)))
  case tswap k i j => exact .inr (.inr (.inr (.inr ⟨k, _, .inl ⟨⟨i, j, .inr rfl⟩, rfl⟩, rfl, rfl⟩)))
  case tident k => exact .inr (.inr (.inr (.inr ⟨k, _, .inr ⟨.inl rfl, rfl⟩, rfl, rfl⟩)))
  case tcommit k =>
    have hb : bijective (s.slot k).t = true := by simpa [commandError] using h
    exact .inr (.inr (.inr (.inr ⟨k, { s.slot k with tinv := deriveInverse (s.slot k).t (s.slot k).tinv, valid := true },
      .inr ⟨.inr rfl, rfl⟩, rfl, by simp [exec, execTcommit, commitSlot, hb]⟩)))

/-- Every command completes (60_exceptions.md R163: the block does not halt on an error). -/
theorem exec_total (i : Instr) (s : State) : ∃ t, exec i s = .next t := by
  cases hc : commandError i s with
  | some c => exact ⟨_, exec_of_error hc⟩
  | none =>
    rcases exec_of_noError hc with ⟨_, h⟩ | ⟨_, h⟩ | ⟨_, _, h⟩ | ⟨_, _, h⟩ | ⟨_, _, _, _, h⟩ <;> exact ⟨_, h⟩

/-- What no command changes: the synthesis parameters, the phase, and the host's and the model's own fields. -/
theorem exec_frame {i : Instr} {s t : State} (h : exec i s = .next t) :
    t.p1 = s.p1 ∧ t.p2 = s.p2 ∧ t.phase = s.phase ∧ t.draws = s.draws ∧ t.events = s.events ∧ t.answers = s.answers := by
  cases hc : commandError i s with
  | some c => rw [exec_of_error hc] at h; cases h; simp
  | none =>
    rcases exec_of_noError hc with ⟨_, h'⟩ | ⟨_, h'⟩ | ⟨_, _, h'⟩ | ⟨_, _, h'⟩ | ⟨_, _, _, _, h'⟩ <;>
      (rw [h'] at h; cases h; simp)

end Sys2Proof.Machine
end

