-- ==== Sys2Proof/Laws/PerInstr.lean ====
section
/-! SUPPORT. Families of statements made per instruction. `FieldsLegal`: the fields the encoder writes pass every check of
30_encoding.md R64: a listed OPC, RSV = 0, every unused field 0, and a slot in SL. -/

namespace Sys2Proof.Laws

/-- The fields of `i` pass the checks of 30_encoding.md R64, and the operands read from them are those of `i`. -/
def FieldsLegal.Statement (i : Instr) : Prop :=
  ∃ m k, mnemonicOfOpc i.fields.opc = some m ∧ i.fields.rsv = 0 ∧ unusedFieldSet m i.fields = false ∧
    slotOfField i.fields.sl = some k ∧ instrOf m i.fields.fa i.fields.fb k = i

theorem FieldsLegal.nop : FieldsLegal.Statement .nop :=
  ⟨.nop, .s0, mnemonicOfOpc_opc .nop, rfl, rfl, slotOfField_slotField .s0, rfl⟩

theorem FieldsLegal.clrerr : FieldsLegal.Statement .clrerr :=
  ⟨.clrerr, .s0, mnemonicOfOpc_opc .clrerr, rfl, rfl, slotOfField_slotField .s0, rfl⟩

theorem FieldsLegal.gadd (a b : Byte) : FieldsLegal.Statement (.gadd a b) :=
  ⟨.gadd, .s0, mnemonicOfOpc_opc .gadd, rfl, rfl, slotOfField_slotField .s0, rfl⟩

theorem FieldsLegal.gmul (a b : Byte) : FieldsLegal.Statement (.gmul a b) :=
  ⟨.gmul, .s0, mnemonicOfOpc_opc .gmul, rfl, rfl, slotOfField_slotField .s0, rfl⟩

theorem FieldsLegal.ginv (a : Byte) : FieldsLegal.Statement (.ginv a) :=
  ⟨.ginv, .s0, mnemonicOfOpc_opc .ginv, rfl, rfl, slotOfField_slotField .s0, rfl⟩

theorem FieldsLegal.gdbl (a : Byte) : FieldsLegal.Statement (.gdbl a) :=
  ⟨.gdbl, .s0, mnemonicOfOpc_opc .gdbl, rfl, rfl, slotOfField_slotField .s0, rfl⟩

theorem FieldsLegal.sub (k : Slot) : FieldsLegal.Statement (.sub k) :=
  ⟨.sub, k, mnemonicOfOpc_opc .sub, rfl, rfl, slotOfField_slotField k, rfl⟩

theorem FieldsLegal.isub (k : Slot) : FieldsLegal.Statement (.isub k) :=
  ⟨.isub, k, mnemonicOfOpc_opc .isub, rfl, rfl, slotOfField_slotField k, rfl⟩

theorem FieldsLegal.permf : FieldsLegal.Statement .permf :=
  ⟨.permf, .s0, mnemonicOfOpc_opc .permf, rfl, rfl, slotOfField_slotField .s0, rfl⟩

theorem FieldsLegal.perms : FieldsLegal.Statement .perms :=
  ⟨.perms, .s0, mnemonicOfOpc_opc .perms, rfl, rfl, slotOfField_slotField .s0, rfl⟩

theorem FieldsLegal.ipermf : FieldsLegal.Statement .ipermf :=
  ⟨.ipermf, .s0, mnemonicOfOpc_opc .ipermf, rfl, rfl, slotOfField_slotField .s0, rfl⟩

theorem FieldsLegal.iperms : FieldsLegal.Statement .iperms :=
  ⟨.iperms, .s0, mnemonicOfOpc_opc .iperms, rfl, rfl, slotOfField_slotField .s0, rfl⟩

theorem FieldsLegal.enc (k : Slot) : FieldsLegal.Statement (.enc k) :=
  ⟨.enc, k, mnemonicOfOpc_opc .enc, rfl, rfl, slotOfField_slotField k, rfl⟩

theorem FieldsLegal.dec (k : Slot) : FieldsLegal.Statement (.dec k) :=
  ⟨.dec, k, mnemonicOfOpc_opc .dec, rfl, rfl, slotOfField_slotField k, rfl⟩

theorem FieldsLegal.twr (k : Slot) (a b : Byte) : FieldsLegal.Statement (.twr k a b) :=
  ⟨.twr, k, mnemonicOfOpc_opc .twr, rfl, rfl, slotOfField_slotField k, rfl⟩

theorem FieldsLegal.trd (k : Slot) (a : Byte) : FieldsLegal.Statement (.trd k a) :=
  ⟨.trd, k, mnemonicOfOpc_opc .trd, rfl, rfl, slotOfField_slotField k, rfl⟩

theorem FieldsLegal.tird (k : Slot) (a : Byte) : FieldsLegal.Statement (.tird k a) :=
  ⟨.tird, k, mnemonicOfOpc_opc .tird, rfl, rfl, slotOfField_slotField k, rfl⟩

theorem FieldsLegal.tswap (k : Slot) (i j : Byte) : FieldsLegal.Statement (.tswap k i j) :=
  ⟨.tswap, k, mnemonicOfOpc_opc .tswap, rfl, rfl, slotOfField_slotField k, rfl⟩

theorem FieldsLegal.tident (k : Slot) : FieldsLegal.Statement (.tident k) :=
  ⟨.tident, k, mnemonicOfOpc_opc .tident, rfl, rfl, slotOfField_slotField k, rfl⟩

theorem FieldsLegal.tcommit (k : Slot) : FieldsLegal.Statement (.tcommit k) :=
  ⟨.tcommit, k, mnemonicOfOpc_opc .tcommit, rfl, rfl, slotOfField_slotField k, rfl⟩

end Sys2Proof.Laws
end

