-- ==== Sys2Proof/Tests/Slice0.lean ====
section
/-! SUPPORT. Tests on words and vectors of the spec, and for every obligation with hypotheses a witness that meets them. -/

namespace Sys2Proof.Tests

open Sys2Proof.Machine Sys2Proof.Claims

/-! ## A small state -/

/-- A slot that holds only zeros and is not committed. -/
def zeroSlot : SlotState := { t := tabulate fun _ => 0, tinv := tabulate fun _ => 0, valid := false }

/-- The identity but for entries 0 and 1, which are exchanged, committed (42_substitution.md R112, example). -/
def exchangedSlot : SlotState :=
  { t := swapEntries identityTable 0 1, tinv := swapEntries identityTable 0 1, valid := true }

/-- P1 = P2 = 1, BLK = 00..0F, slot 0 the identity, slot 1 with 0 and 1 exchanged, slot 2 zeros and not committed. -/
def small : State where
  p1 := 1
  p2 := 1
  err := 0
  errcmd := 0
  res := 0
  blk := countingBlock
  slots := #v[identitySlot, exchangedSlot, zeroSlot]
  phase := .running
  draws := 0
  events := []
  answers := []

/-- `small` with one access to come. -/
def withAccess (a : Access) : State := { small with events := [.access a] }

/-- `small` with a command word to come. -/
def withCommand (w : Word) : State := withAccess (.write 0x08 (.b32 w))

/-- The next state of an outcome, if it is one. -/
def nextOf (o : Host.Outcome State Fault Refusal) : Option State :=
  match o with
  | .next t => some t
  | .fault _ => none
  | .refused _ => none

/-- RES after a command. -/
def resAfter (i : Instr) : Option Byte := (nextOf (exec i small)).map (·.res)

/-- BLK0..BLK3 after a command on the block `b`. -/
def wordsAfter (i : Instr) (b : Block) : Option (List Word) :=
  (nextOf (exec i { small with blk := b })).map fun t => [blkWord t.blk 0, blkWord t.blk 1, blkWord t.blk 2, blkWord t.blk 3]

/-- STATUS.ERR and ERRCMD after a word is written to CMD. -/
def reportAfter (w : Word) : Option (BitVec 4 × Word) := (nextOf (step (withCommand w))).map fun t => (t.err, t.errcmd)

theorem identityTable_isBijection : IsBijection identityTable :=
  fun v => ⟨v, by simp, fun y h => by simpa using h⟩

theorem identitySlot_coherent : identitySlot.Coherent :=
  fun _ => ⟨identityTable_isBijection, fun x => by simp [identitySlot]⟩

theorem swapEntries_identity_involutive (a b x : Byte) :
    lookup (swapEntries identityTable a b) (lookup (swapEntries identityTable a b) x) = x := by
  simp only [lookup_swapEntries, lookup_identityTable]
  by_cases hb : x = b
  · simp only [if_pos hb]; split <;> simp_all
  · by_cases ha : x = a <;> simp [ha, hb]

theorem exchanged_involutive (x : Byte) : lookup exchangedSlot.t (lookup exchangedSlot.t x) = x :=
  swapEntries_identity_involutive 0 1 x

theorem exchangedTable_isBijection : IsBijection exchangedSlot.t := fun v =>
  ⟨lookup exchangedSlot.t v, exchanged_involutive v, fun y h => by rw [← h, exchanged_involutive]⟩

theorem exchangedSlot_coherent : exchangedSlot.Coherent :=
  fun _ => ⟨exchangedTable_isBijection, exchanged_involutive⟩

theorem zeroTable_notBijection : ¬ IsBijection zeroSlot.t := fun h => by
  obtain ⟨x, _, hu⟩ := h 0
  exact absurd ((hu 0 (by decide +kernel)).trans (hu 1 (by decide +kernel)).symm) (by decide)

theorem small_coherent : small.Coherent := fun k => by
  cases k
  · exact identitySlot_coherent
  · exact exchangedSlot_coherent
  · exact fun h => absurd h (by decide)

/-! ## Decoding: words written out from 30_encoding.md R60, R63 and the vectors of 95_test_vectors.md -/

theorem test_decode_nop : decode 0b000000_00_00000000_00000000_00000000 = some .nop := by decide
theorem test_decode_clrerr : decode 0b000000_00_00000000_00000000_00000001 = some .clrerr := by decide
theorem test_decode_gadd : decode 0b000000_00_10000011_01010111_00001000 = some (.gadd 0x57 0x83) := by decide
theorem test_decode_gmul : decode 0b000000_00_10000011_01010111_00001001 = some (.gmul 0x57 0x83) := by decide
theorem test_decode_ginv : decode 0b000000_00_00000000_01010011_00001010 = some (.ginv 0x53) := by decide
theorem test_decode_gdbl : decode 0b000000_00_00000000_01010111_00001011 = some (.gdbl 0x57) := by decide
theorem test_decode_sub : decode 0b000000_10_00000000_00000000_00010000 = some (.sub .s2) := by decide
theorem test_decode_isub : decode 0b000000_01_00000000_00000000_00010001 = some (.isub .s1) := by decide
theorem test_decode_permf : decode 0b000000_00_00000000_00000000_00010010 = some .permf := by decide
theorem test_decode_perms : decode 0b000000_00_00000000_00000000_00010011 = some .perms := by decide
theorem test_decode_ipermf : decode 0b000000_00_00000000_00000000_00010100 = some .ipermf := by decide
theorem test_decode_iperms : decode 0b000000_00_00000000_00000000_00010101 = some .iperms := by decide
theorem test_decode_enc : decode 0b000000_00_00000000_00000000_00011000 = some (.enc .s0) := by decide
theorem test_decode_dec : decode 0b000000_10_00000000_00000000_00011001 = some (.dec .s2) := by decide
theorem test_decode_twr : decode 0b000000_01_10101011_00010000_00100000 = some (.twr .s1 0x10 0xAB) := by decide
theorem test_decode_trd : decode 0b000000_00_00000000_01000010_00100001 = some (.trd .s0 0x42) := by decide
theorem test_decode_tird : decode 0b000000_00_00000000_10101011_00100010 = some (.tird .s0 0xAB) := by decide
theorem test_decode_tswap : decode 0b000000_10_00010001_11111111_00100011 = some (.tswap .s2 255 17) := by decide
theorem test_decode_tident : decode 0b000000_01_00000000_00000000_00100100 = some (.tident .s1) := by decide
theorem test_decode_tcommit : decode 0b000000_01_00000000_00000000_00100101 = some (.tcommit .s1) := by decide

theorem test_decodeTableWord : decodeTableWord 32 0x01AB1020 = some (.twr .s1 0x10 0xAB) := by decide
theorem test_encode : encode (.tswap .s2 255 17) = 0x0211FF23 := by decide

/-! ## WellFormed and the refusals of Decode: one ill-formed word for each check (30_encoding.md R64, R65; V24 to V30b) -/

theorem test_illformed_unknownOpc : wellFormedWord 0x00000016 = false ∧ decode 0x00000016 = none := by decide
theorem test_illformed_reserved : wellFormedWord 0x04000010 = false ∧ decode 0x04000010 = none := by decide
theorem test_illformed_unusedFa : wellFormedWord 0x00000100 = false ∧ decode 0x00000100 = none := by decide
theorem test_illformed_unusedFb : wellFormedWord 0x00FF010A = false ∧ decode 0x00FF010A = none := by decide
theorem test_illformed_unusedSl : wellFormedWord 0x01000012 = false ∧ decode 0x01000012 = none := by decide
theorem test_illformed_slotThree : wellFormedWord 0x03000020 = false ∧ decode 0x03000020 = none := by decide
theorem test_wellFormed_rows : [0x00000000, 0x00835709, 0x0211FF23, 0x02000019].all wellFormedWord = true := by decide

theorem test_cause_unknownOpc : decodeOrCause 0x00000016 = .error .unknownOpc := rfl
theorem test_cause_reserved : decodeOrCause 0x04000010 = .error .reservedBits := rfl
theorem test_cause_unused : decodeOrCause 0x01000012 = .error .unusedField := rfl
theorem test_cause_slotThree : decodeOrCause 0x03000020 = .error .slotThree := rfl

/-! ## The assembler (30_encoding.md R66 to R68) -/

theorem test_assemble_gmul :
    assembleLine (.command .gmul [.byte 0x57, .byte 0x83]) = some (commandWrite 0x00835709) := by decide
theorem test_assemble_byteTooBig : assembleLine (.command .ginv [.byte 256]) = none := by decide
theorem test_assemble_slotThree : assembleLine (.command .sub [.slot 3]) = none := by decide
theorem test_assemble_wrongForm : assembleLine (.command .gmul [.byte 1]) = none := by decide
theorem test_expand_ldblk :
    expandPseudo (.ldblk countingBlock) =
      [.wr (.blk 0) 0x03020100, .wr (.blk 1) 0x07060504, .wr (.blk 2) 0x0B0A0908, .wr (.blk 3) 0x0F0E0D0C] := by
  decide +kernel
theorem test_expand_gdiv :
    expandPseudo (.gdiv 0xC1 0x02 0x8D) =
      [.command .ginv [.byte 0x02], .rd .res, .command .gmul [.byte 0xC1, .byte 0x8D]] := by decide
theorem test_expand_tshuffle_length :
    (expandPseudo (.tshuffle 0 (tabulate fun _ => 0))).length = 257 := by decide +kernel

/-! ## One command each, on vectors of 95_test_vectors.md and the examples of the rules -/

theorem test_nop : nextOf (exec .nop small) = some small := rfl
theorem test_clrerr : (nextOf (exec .clrerr { small with err := 2, errcmd := 0xA })).map (fun t => (t.err, t.errcmd)) =
    some (0, 0) := by decide
theorem test_gadd : resAfter (.gadd 0x57 0x83) = some 0xD4 := by decide
theorem test_gmul : resAfter (.gmul 0x57 0x83) = some 0xC1 := by decide
theorem test_gmul_reduced : resAfter (.gmul 0xFF 0xFF) = some 0x13 := by decide
theorem test_ginv : resAfter (.ginv 0x53) = some 0xCA := by decide +kernel
theorem test_ginv_zero : reportAfter 0x0000000A = some (2, 0x0000000A) := by decide +kernel
theorem test_gdbl : resAfter (.gdbl 0x57) = some 0xAE := by decide
theorem test_gdbl_top : resAfter (.gdbl 0x80) = some 0x1B := by decide
theorem test_sub : wordsAfter (.sub .s1) countingBlock = some [0x03020001, 0x07060504, 0x0B0A0908, 0x0F0E0D0C] := by
  decide +kernel
theorem test_sub_invalid : reportAfter 0x02000010 = some (3, 0x02000010) := by decide +kernel
theorem test_isub : wordsAfter (.isub .s1) (blockOfWords 0x03020001 0 0 0) = some [0x03020100, 0x01010101, 0x01010101,
    0x01010101] := by decide +kernel
theorem test_permf : wordsAfter .permf countingBlock = some [0x455C6A6A, 0x51336D2C, 0x615DD9B0, 0x5C219C27] := by
  decide +kernel
theorem test_perms : wordsAfter .perms countingBlock = some [0xBAA39595, 0xAECC92D3, 0x9EA2264F, 0xA3DE63D8] := by
  decide +kernel
theorem test_ipermf : wordsAfter .ipermf countingBlock = some [0x4052D5A3, 0x3630FBD7, 0x09BF9E6A, 0xF38138A5] := by
  decide +kernel
theorem test_iperms : wordsAfter .iperms countingBlock = some [0xD67D5577, 0x1463172B, 0x0C26BA21, 0x047EE169] := by
  decide +kernel
theorem test_enc : wordsAfter (.enc .s0) textBlock = some [0x1E480EE5, 0x06F801B1, 0x19CCA720, 0x9094B240] := by
  decide +kernel
theorem test_dec : wordsAfter (.dec .s0) textBlock = some [0x49076BBD, 0x59FD2B0C, 0x473E27A8, 0x635B7836] := by
  decide +kernel
theorem test_twr : (nextOf (exec (.twr .s1 0x10 0xAB) small)).map
    (fun t => (lookup (t.slot .s1).t 0x10, (t.slot .s1).valid, (t.slot .s0).valid)) = some (0xAB, false, true) := by
  decide +kernel
theorem test_trd : resAfter (.trd .s0 0x42) = some 0x42 := by decide +kernel
theorem test_tird : resAfter (.tird .s1 0x01) = some 0x00 := by decide +kernel
theorem test_tird_invalid : reportAfter 0x02000022 = some (3, 0x02000022) := by decide +kernel
theorem test_tswap : (nextOf (exec (.tswap .s0 255 17) small)).map
    (fun t => (lookup (t.slot .s0).t 255, lookup (t.slot .s0).t 17, (t.slot .s0).valid)) = some (17, 255, false) := by
  decide +kernel
theorem test_tident : (nextOf (exec (.tident .s2) small)).map
    (fun t => (lookup (t.slot .s2).t 0xFE, lookup (t.slot .s2).tinv 0xFE, statusWord t)) = some (0xFE, 0xFE, 0x700) := by
  decide +kernel
theorem test_tcommit_notBijective : reportAfter 0x02000025 = some (4, 0x02000025) := by decide +kernel

/-! ## Steps, the bus, reset -/

theorem test_step_idle : nextOf (step small) = some small := rfl
theorem test_step_illegal : reportAfter 0x00000002 = some (1, 0x00000002) := by decide +kernel
theorem test_step_cfg : (nextOf (step (withAccess (.read 0x04 .w32)))).map (·.answers) = some [0x00030101] := by
  decide +kernel
theorem test_step_id : (nextOf (step (withAccess (.read 0 .w32)))).map (·.answers) = some [0x47463853] := by decide +kernel
theorem test_step_misaligned : nextOf (step (withAccess (.read 0x02 .w32))) = none := by decide
theorem test_withFetchWord : (nextOf (step (State.reset.withFetchWord 32 0x00835709))).map (·.res) = some 0xC1 := by rfl

theorem test_powerLoss_in_reset :
    (nextOf (step { small with phase := .inReset, events := [.powerLoss] })).map (·.phase) = some .inReset := by rfl

/-! ## Witnesses: states and operands that meet the hypotheses of each obligation that has some -/

theorem witness_LegalWordIsTheWordOfItsCommand : decode 0x00835709 = some (.gmul 0x57 0x83) := by decide

theorem witness_AssemblerEncodesLegalWords :
    assembleLine (.command .twr [.slot 2, .byte 255, .byte 0]) = some (commandWrite 0x0200FF20) ∧
    AsmArg.byte 255 ∈ [AsmArg.slot 2, .byte 255, .byte 0] ∧ AsmArg.slot 2 ∈ [AsmArg.slot 2, .byte 255, .byte 0] := by decide

theorem witness_NopChangesNothing : (0x00000100 : Word).extractLsb' 0 8 = 0#8 ∧ (0x00000100 : Word) ≠ 0 := by decide

theorem witness_ClrerrClearsTheReport :
    (small.err = 0 ∧ small.errcmd = 0) ∧ (0x00000101 : Word).extractLsb' 0 8 = 1#8 ∧ (0x00000101 : Word) ≠ 1 := by decide

theorem witness_FieldLawsHold : (0x01 : Byte) ≠ 0 ∧ (0xFF : Byte) ≠ 0 := by decide

theorem witness_GinvInvertsInTheField : (0 : Byte) = 0 ∧ (0x53 : Byte) ≠ 0 ∧ gfMul 0x53 0xCA = 1 := by decide

theorem witness_GdblDoublesInTheField : (0x7F : Byte).toNat < 0x80 ∧ 0x80 ≤ (0x80 : Byte).toNat := by decide

theorem witness_FieldCommandsTouchOnlyRes :
    family (.gadd 0 0) = .field ∧ family (.gmul 0 0) = .field ∧ family (.ginv 1) = .field ∧ family (.ginv 0) = .field ∧
      family (.gdbl 0) = .field := by decide

theorem witness_TwrWritesOneEntry : Slot.s1 ≠ .s2 := by decide

theorem witness_TirdReadsTheInverseEntry :
    (small.slot .s2).valid = false ∧ (small.slot .s1).valid = true ∧ (small.slot .s1).Coherent ∧
    ∃ s : State, (s.slot .s0).valid = true ∧ (s.slot .s0).Coherent ∧ lookup (s.slot .s0).t 0x10 = 0xAB := by
  refine ⟨rfl, rfl, exchangedSlot_coherent, ?_⟩
  have inv := swapEntries_identity_involutive 0x10 0xAB
  refine ⟨small.setSlot .s0 ⟨swapEntries identityTable 0x10 0xAB, swapEntries identityTable 0x10 0xAB, true⟩, rfl,
    fun _ => ⟨fun v => ⟨_, inv v, fun y h => ?_⟩, inv⟩, by decide +kernel⟩
  exact (inv y).symm.trans (congrArg _ h)

theorem witness_TswapSwapsTwoEntries :
    ((2 : Byte) ≠ 0 ∧ (2 : Byte) ≠ 1) ∧ Slot.s0 ≠ .s1 ∧ IsBijection (small.slot .s1).t ∧
    (∃ i j : Byte, i = j ∧ (nextOf (exec (.tswap .s0 i j) small)).isSome = true) :=
  ⟨by decide, by decide, exchangedTable_isBijection, 7, 7, rfl, rfl⟩

theorem witness_TidentLoadsTheIdentity : Slot.s0 ≠ .s2 := by decide

theorem witness_TcommitChecksAndDerivesTheInverse :
    IsBijection (small.slot .s0).t ∧ (small.slot .s0).valid = true ∧ (small.slot .s0).Coherent ∧
    ¬ IsBijection (small.slot .s2).t ∧ (small.slot .s2).Coherent :=
  ⟨identityTable_isBijection, rfl, identitySlot_coherent, zeroTable_notBijection, small_coherent .s2⟩

theorem witness_TableCommandsTouchOnlyTheirSlot :
    family (.trd .s1 0xFF) = .table ∧ slotOperand (.trd .s1 0xFF) = some .s1 ∧
    (∀ a : Byte, Instr.twr .s1 0 0 ≠ .trd .s1 a ∧ Instr.twr .s1 0 0 ≠ .tird .s1 a) ∧
    commandError (.trd .s1 0xFF) small = none ∧ commandError (.tird .s2 0) small = some .tableInvalid ∧
    (∃ s' : State, s' ≠ small ∧ s'.slot .s1 = small.slot .s1 ∧ s'.err = small.err ∧ s'.errcmd = small.errcmd) ∧
    (0x03000024 : Word).extractLsb' 24 2 = 3#2 :=
  ⟨rfl, rfl, fun _ => ⟨nofun, nofun⟩, rfl, rfl, ⟨{ small with res := 1 }, fun h => absurd (congrArg State.res h) (by decide), rfl, rfl, rfl⟩,
   by decide⟩

theorem witness_WritingATableUncommitsItsSlot :
    (∃ a b : Byte, Instr.twr .s0 0xFF 0 = .twr .s0 a b ∨ Instr.twr .s0 0xFF 0 = .tswap .s0 a b) ∧
    (∀ d ∈ [Instr.tident .s1, .tswap .s0 0 1], d ≠ .tident .s0 ∧ d ≠ .tcommit .s0) ∧
    ∃ t u : State, exec (.twr .s0 0xFF 0) small = .next t ∧ runCommands [.tident .s1, .tswap .s0 0 1] t = .next u :=
  ⟨⟨0xFF, 0, .inl rfl⟩, by decide, _, _, rfl, rfl⟩

theorem commandError_tcommit_small : commandError (.tcommit .s1) small = none := by
  have e : small.slot .s1 = exchangedSlot := rfl
  simp only [commandError, e, (bijective_iff _).2 exchangedTable_isBijection, if_true]

theorem witness_CommittedTablesUndoEachOther :
    (∃ t, exec (.tident .s2) small = .next t) ∧
    commandError (.tcommit .s1) small = none ∧ ∃ t, exec (.tcommit .s1) small = .next t :=
  ⟨⟨_, rfl⟩, commandError_tcommit_small, _, rfl⟩

theorem witness_SubPutsEachByteThroughT :
    (small.slot .s2).valid = false ∧ (small.slot .s0).valid = true ∧
    ∃ s : State, (s.slot .s0).valid = true ∧ (s.slot .s0).t = swapEntries identityTable 0 1 ∧ s.blk = countingBlock :=
  ⟨rfl, rfl, { small with slots := #v[exchangedSlot, exchangedSlot, zeroSlot] }, rfl, rfl, rfl⟩

theorem witness_IsubPutsEachByteThroughTinv :
    (small.slot .s2).valid = false ∧ (small.slot .s1).valid = true ∧ (small.slot .s1).Coherent :=
  ⟨rfl, rfl, exchangedSlot_coherent⟩

theorem witness_SubstitutionLayersUndoEachOther : exchangedSlot.valid = true ∧ exchangedSlot.Coherent :=
  ⟨rfl, exchangedSlot_coherent⟩

/-- For PERMF and PERMS, the zero block with each round count of the examples. -/
theorem witness_PermExamples (p : Byte) :
    ∃ s : State, s.blk = constantBlock 0x00 ∧ s.p1 = p ∧ s.p2 = p :=
  ⟨{ small with blk := constantBlock 0x00, p1 := p, p2 := p }, rfl, rfl, rfl⟩

/-- For PERMF, PERMS, IPERMF and IPERMS, the block 00..0F with one round. -/
theorem witness_CountingExamples : small.blk = countingBlock ∧ small.p1 = 1 ∧ small.p2 = 1 := ⟨rfl, rfl, rfl⟩

theorem witness_MixingCommandsWriteOnlyBlk :
    family .permf = .mixing ∧ family .perms = .mixing ∧ family .ipermf = .mixing ∧ family .iperms = .mixing ∧
    ∃ s' : State, s' ≠ small ∧ s'.blk = small.blk ∧ s'.p1 = small.p1 ∧ s'.p2 = small.p2 :=
  ⟨rfl, rfl, rfl, rfl, { small with err := 1 }, fun h => absurd (congrArg State.err h) (by decide), rfl, rfl, rfl⟩

theorem witness_EncRunsTheEncryptPipeline :
    (small.slot .s2).valid = false ∧ (small.slot .s1).valid = true ∧ small.slot .s0 = identitySlot ∧ small.p1 = 1 ∧ small.p2 = 1 ∧
    (∃ s : State, s.slot .s0 = identitySlot ∧ s.p1 = 1 ∧ s.p2 = 1 ∧ s.blk = textBlock) ∧
    ∃ s : State, s.slot .s0 = identitySlot ∧ s.blk = constantBlock 0xFF :=
  ⟨rfl, rfl, rfl, rfl, rfl, ⟨{ small with blk := textBlock }, rfl, rfl, rfl, rfl⟩, { small with blk := constantBlock 0xFF }, rfl, rfl⟩

theorem witness_DecRunsTheDecryptPipeline :
    (small.slot .s2).valid = false ∧ (small.slot .s1).valid = true ∧
    ∃ s : State, s.slot .s0 = identitySlot ∧ s.p1 = 1 ∧ s.p2 = 1 ∧
      s.blk = blockOfWords 0x1E480EE5 0x06F801B1 0x19CCA720 0x9094B240 :=
  ⟨rfl, rfl, { small with blk := blockOfWords 0x1E480EE5 0x06F801B1 0x19CCA720 0x9094B240 }, rfl, rfl, rfl, rfl⟩

theorem witness_PipelinesEqualTheirFiveCommands : (small.slot .s1).valid = true := rfl

theorem witness_EncryptDecryptRoundTrip :
    (small.slot .s1).valid = true ∧ (small.slot .s1).Coherent ∧
    ∀ i ∈ [Instr.nop, .clrerr, .ginv 0, .gmul 2 3, .tident .s0, .twr .s2 0 0], sparesBlockAndSlot .s1 i = true :=
  ⟨rfl, exchangedSlot_coherent, by decide⟩

theorem witness_ErrorsArePreciseAndFirstIsKept :
    decode 0x03000010 = none ∧
    (decode 0x0000000A = some (.ginv 0) ∧ commandError (.ginv 0) small = some .invZero) ∧
    (decode 0x02000018 = some (.enc .s2) ∧ commandError (.enc .s2) small = some .tableInvalid) ∧
    (decode 0x0000000B = some (.gdbl 0) ∧ commandError (.gdbl 0) small = none) :=
  ⟨by decide, ⟨by decide, rfl⟩, ⟨by decide, rfl⟩, by decide, rfl⟩

theorem witness_CommandsIgnoreTheErrorReport :
    ({ small with err := 2, errcmd := 0x0000000A } : State).err ≠ 0 ∧ Instr.ginv 0 ≠ .clrerr := by decide

theorem witness_ClearReportAtTheEndMeansNoErrorRaised :
    (∀ v ∈ [0x02000024] ++ (0x0000570B : Word) :: [0x00000000], decode v ≠ some .clrerr) ∧
    ∃ t u : State, runWords ([0x02000024] ++ 0x0000570B :: [0x00000000]) small = .next t ∧ t.NoError ∧
      runWords [0x02000024] small = .next u := by
  have h1 : decode 0x02000024 = some (.tident .s2) := by decide
  have h2 : decode 0x0000570B = some (.gdbl 0x57) := by decide
  have h3 : decode 0x00000000 = some .nop := by decide
  refine ⟨?_, ((small.setSlot .s2 { t := identityTable, tinv := identityTable, valid := true }).setRes (dbl 0x57)),
    small.setSlot .s2 { t := identityTable, tinv := identityTable, valid := true }, ?_, rfl, ?_⟩
  · simp only [List.cons_append, List.nil_append, List.forall_mem_cons, h1, h2, h3]
    exact ⟨nofun, nofun, nofun, nofun⟩
  · simp only [List.cons_append, List.nil_append, runWords, issueCommand, h1, h2, h3, exec, execTident, execGdbl, execNop]
  · simp only [runWords, issueCommand, h1, exec, execTident]

theorem witness_StepKeepsTheErrorRecord :
    small.ErrorRecord ∧ (withCommand 0x00000002).ErrorRecord ∧ ¬ losesPower (withCommand 0x00000002) ∧
    ∃ t, step (withCommand 0x00000002) = .next t ∧ t.phase = .running :=
  ⟨.inl ⟨rfl, rfl⟩, .inl ⟨rfl, rfl⟩, fun ⟨_, h⟩ => (by cases h), _, rfl, rfl⟩

theorem witness_StepRunsTheDecodedCommand :
    (withCommand 0x02000025).phase = .running ∧
    (withCommand 0x02000025).events = .access (.write 0x08 (.b32 0x02000025)) :: [] ∧ decode 0x02000025 = some (.tcommit .s2) :=
  ⟨rfl, rfl, by decide⟩

theorem witness_ReadsFollowTheRegisterMap :
    ∀ off ∈ [0x00, 0x04, 0x08, 0x0C, 0x10, 0x14, 0x18, 0x1C, 0x20, 0x2C, 0x30, 0x3C],
      (withAccess (.read off .w32)).phase = .running ∧ off < 64 ∧ off % 4 = 0 ∧
        (withAccess (.read off .w32)).events = .access (.read off .w32) :: [] := by
  decide

theorem witness_WritesHaveOnlyTheirEffect :
    (∀ off ∈ [0x00, 0x04, 0x0C, 0x1C, 0x30, 0x3C], off < 64 ∧ off % 4 = 0 ∧ off ≠ 0x08 ∧ ¬ (0x20 ≤ off ∧ off < 0x30)) ∧
    (∀ off ∈ [0x20, 0x24, 0x28, 0x2C], off < 64 ∧ off % 4 = 0 ∧ 0x20 ≤ off ∧ off < 0x30) ∧
    (withAccess (.write 0x2C (.b32 1))).phase = .running ∧
    (withAccess (.write 0x2C (.b32 1))).events = .access (.write ((0x2C : Nat) : Int) (.b32 1)) :: [] := by
  decide

theorem witness_CfgReadsTheParametersAndNeverChanges :
    small.RoundsLegal ∧ ({ small with p1 := 255, p2 := 255 } : State).RoundsLegal ∧ ∃ t, step small = .next t :=
  ⟨⟨by decide, by decide⟩, ⟨by decide, by decide⟩, _, rfl⟩

/-- ERR changes under CLRERR, and a VALID bit under TWR. -/
theorem witness_StatusFieldsChangeOnlyAsListed :
    (∃ s t : State, step s = .next t ∧ s.err ≠ 0 ∧ t.err ≠ s.err) ∧
    ∃ s t : State, step s = .next t ∧ (t.slot .s0).valid ≠ (s.slot .s0).valid :=
  ⟨⟨{ withCommand 0x00000001 with err := 2, errcmd := 0x0000000A }, _, rfl, by decide, by decide⟩,
   withCommand 0x00000020, _, rfl, by decide⟩

theorem witness_ErrcmdHoldsTheWordThatSetErr :
    (∃ t, exec .clrerr small = .next t) ∧
    (∃ s t : State, step s = .next t ∧ s.err = 0 ∧ t.err ≠ 0 ∧ t.errcmd ≠ s.errcmd) :=
  ⟨⟨_, rfl⟩, withCommand 0x0000000A, _, rfl, by decide, by decide, by decide⟩

theorem witness_ResIsWrittenOnlyByResultCommands :
    (∃ t, exec (.gadd 0x57 0x83) small = .next t ∧ t.res ≠ small.res) ∧
    (∃ t, exec (.trd .s0 0xFF) small = .next t ∧ t.res ≠ small.res) ∧
    ∃ t, exec (.tird .s0 0xFF) small = .next t ∧ t.res ≠ small.res :=
  ⟨⟨_, rfl, by decide +kernel⟩, ⟨_, rfl, by decide +kernel⟩, ⟨_, rfl, by decide +kernel⟩⟩

theorem witness_BlkWordsPackLittleEndian : (0 : Fin 4) ≠ 3 := by decide

theorem witness_OnlyIllegalAccessesGetABusError :
    (∀ off ∈ [(0 : Int), 63], 0 ≤ off ∧ off < 64) ∧
    (isWordAccess (.write 0x20 (.b8 0xAA)) = false ∧ isWordAccess (.read 0x20 .w64) = false) ∧
    (isWordAccess (.read 0x3F .w32) = true ∧ (Access.read 0x3F .w32).off % 4 ≠ 0) ∧
    (isWordAccess (.read 0x3C .w32) = true ∧ (Access.read 0x3C .w32).off % 4 = 0) ∧
    (withAccess (.read 0x3C .w32)).phase = .running ∧
    (withAccess (.read 0x3C .w32)).events = .access (.read 0x3C .w32) :: [] := by
  decide

theorem witness_MachineStopsOnlyAtForbiddenAccesses :
    step (withAccess (.read 0x02 .w32)) = .fault .busError ∧
    step (withAccess (.read 64 .w32)) = .refused .outsideWindow ∧
    step (withAccess (.write (-1) (.b32 0))) = .refused .outsideWindow ∧
    step { withAccess (.read 0 .w32) with phase := .inReset } = .refused .accessDuringReset ∧
    step { withAccess (.read 0 .w32) with phase := .powerLost } = .refused .accessBeforeReset :=
  ⟨rfl, rfl, rfl, rfl, rfl⟩

theorem witness_AddressDecodeSelectsTheWindow :
    Config.base ≤ Config.base + 63 ∧ ¬ (Config.base ≤ Config.base + 64 ∧ Config.base + 64 < Config.base + 64) := by omega

theorem witness_AccessesArePerformedInOrder :
    ∃ s : State, s.phase = .running ∧ decode 0x00000010 = some (.sub .s0) ∧ (0x2C < 64 ∧ 0x2C % 4 = 0) ∧
      s.events = [.access (.write ((0x20 + 4 * (3 : Fin 4).val : Nat) : Int) (.b32 7)), .access (.write 0x08 (.b32 0x00000010)),
        .access (.read ((0x2C : Nat) : Int) .w32)] ++ [] :=
  ⟨{ small with events := [.access (.write 0x2C (.b32 7)), .access (.write 0x08 (.b32 0x10)), .access (.read 0x2C .w32)] },
   rfl, by decide, by decide, rfl⟩

theorem witness_StepKeepsCommittedSlotsCoherent :
    (withCommand 0x02000024).Coherent ∧ ¬ losesPower (withCommand 0x02000024) ∧
    (∃ t, step (withCommand 0x02000024) = .next t ∧ t.phase = .running) ∧
    (∃ t, exec (.tident .s2) small = .next t ∧ (small.slot .s2).valid = false ∧ (t.slot .s2).valid = true) ∧
    ∃ t, exec (.twr .s0 0 0) small = .next t ∨ exec (.tswap .s0 0 0) small = .next t :=
  ⟨small_coherent, fun ⟨_, h⟩ => (by cases h), ⟨_, rfl, rfl⟩, ⟨_, rfl, rfl, rfl⟩, _, .inl rfl⟩

theorem witness_ResetLeavesTheStatedValues :
    ∃ u s : State, endsReset u ∧ step u = .next s :=
  ⟨{ small with phase := .inReset, events := [.resetLine false] }, _, ⟨rfl, [], rfl⟩, rfl⟩

theorem witness_ResetAndPowerLossHoldOffAccesses :
    ({ small with events := [.resetLine true] } : State).events = .resetLine true :: [] ∧
    (∃ s : State, s.phase = .inReset ∧ s.events = .access (.read 0 .w32) :: []) ∧
    (∃ s : State, endsReset s) ∧
    (∃ s : State, s.phase = .running ∧ s.events = .resetLine false :: []) ∧
    (∃ s : State, s.phase = .running ∧ s.events = .powerLoss :: []) ∧
    (∃ s : State, s.phase = .inReset ∧ s.events = .powerLoss :: [.resetLine false]) ∧
    (∃ s : State, s.phase = .powerLost ∧ s.events = .access (.read 0 .w32) :: []) ∧
    ∃ s t : State, s.phase = .powerLost ∧ step s = .next t :=
  ⟨rfl, ⟨{ withAccess (.read 0 .w32) with phase := .inReset }, rfl, rfl⟩,
   ⟨{ small with phase := .inReset, events := [.resetLine false] }, rfl, [], rfl⟩,
   ⟨{ small with events := [.resetLine false] }, rfl, rfl⟩, ⟨{ small with events := [.powerLoss] }, rfl, rfl⟩,
   ⟨{ small with phase := .inReset, events := [.powerLoss, .resetLine false] }, rfl, rfl⟩,
   ⟨{ withAccess (.read 0 .w32) with phase := .powerLost }, rfl, rfl⟩,
   { small with phase := .powerLost, events := [.resetLine true] }, _, rfl, rfl⟩

theorem witness_AfterResetOnlyLoadedSlotsWork :
    needsCommitted (.enc .s0) = true ∧ slotOperand (.enc .s0) = some .s0 ∧
    (family (.gmul 0 0) = .field ∧ Instr.gmul 0 0 ≠ .ginv 0) ∧ (family .permf = .mixing ∧ Instr.permf ≠ .ginv 0) ∧
    (∀ d ∈ [Instr.tident .s1, .twr .s0 0 0], d ≠ .tident .s0 ∧ d ≠ .tcommit .s0) ∧
    ∃ t, runCommands [.tident .s1, .twr .s0 0 0] State.reset = .next t :=
  ⟨rfl, rfl, by decide, by decide, by decide, _, rfl⟩

end Sys2Proof.Tests
end

section
/-! PROOFS. The encoder and the decoder undo each other (30_encoding.md R64, R67). -/

namespace Sys2Proof

/-- The fields of every command pass the checks of 30_encoding.md R64. -/
theorem fieldsLegal (i : Instr) : Laws.FieldsLegal.Statement i :=
  match i with
  | .nop => Laws.FieldsLegal.nop
  | .clrerr => Laws.FieldsLegal.clrerr
  | .gadd a b => Laws.FieldsLegal.gadd a b
  | .gmul a b => Laws.FieldsLegal.gmul a b
  | .ginv a => Laws.FieldsLegal.ginv a
  | .gdbl a => Laws.FieldsLegal.gdbl a
  | .sub k => Laws.FieldsLegal.sub k
  | .isub k => Laws.FieldsLegal.isub k
  | .permf => Laws.FieldsLegal.permf
  | .perms => Laws.FieldsLegal.perms
  | .ipermf => Laws.FieldsLegal.ipermf
  | .iperms => Laws.FieldsLegal.iperms
  | .enc k => Laws.FieldsLegal.enc k
  | .dec k => Laws.FieldsLegal.dec k
  | .twr k a b => Laws.FieldsLegal.twr k a b
  | .trd k a => Laws.FieldsLegal.trd k a
  | .tird k a => Laws.FieldsLegal.tird k a
  | .tswap k i j => Laws.FieldsLegal.tswap k i j
  | .tident k => Laws.FieldsLegal.tident k
  | .tcommit k => Laws.FieldsLegal.tcommit k

@[simp] theorem decode_encode (i : Instr) : decode (encode i) = some i := by
  rw [decode_eq_some_iff, encode, fieldsOf_packFields]
  exact fieldsLegal i

/-- The fields of a mnemonic's command: its OPC, the operands it uses, and 0 elsewhere (30_encoding.md R67). -/
theorem fields_instrOf (m : Mnemonic) (a b : Byte) (k : Slot) :
    (instrOf m a b k).fields =
      { opc := m.opc
        fa := if m.uses.fa then a else 0
        fb := if m.uses.fb then b else 0
        sl := if m.uses.sl then slotField k else 0
        rsv := 0 } := by
  cases m <;> rfl

theorem unusedFieldSet_eq_false_iff (m : Mnemonic) (f : CommandFields) :
    unusedFieldSet m f = false ↔
      (m.uses.fa = false → f.fa = 0) ∧ (m.uses.fb = false → f.fb = 0) ∧ (m.uses.sl = false → f.sl = 0) := by
  cases hfa : m.uses.fa <;> cases hfb : m.uses.fb <;> cases hsl : m.uses.sl <;>
    simp [unusedFieldSet, hfa, hfb, hsl, and_assoc]

/-- A legal word has no bit that its command does not give back (30_encoding.md R64). -/
theorem encode_of_decode {w : Word} {i : Instr} (h : decode w = some i) : encode i = w := by
  obtain ⟨m, k, hopc, hrsv, hunused, hslot, rfl⟩ := (decode_eq_some_iff w i).1 h
  obtain ⟨hfa, hfb, hsl⟩ := (unusedFieldSet_eq_false_iff m (fieldsOf w)).1 hunused
  have hfields : (instrOf m (fieldsOf w).fa (fieldsOf w).fb k).fields = fieldsOf w := by
    rw [fields_instrOf, opc_of_mnemonicOfOpc hopc, slotField_of_slotOfField hslot, ← hrsv,
      ite_eq_left_iff.2 fun e => (hfa (by simpa using e)).symm,
      ite_eq_left_iff.2 fun e => (hfb (by simpa using e)).symm,
      ite_eq_left_iff.2 fun e => (hsl (by simpa using e)).symm]
  rw [encode, hfields, packFields_fieldsOf]

end Sys2Proof
end

section
/-! PROOFS. What each kind of step does: which event it took, and which fields it may have changed. -/

namespace Sys2Proof.Machine

open Sys2Proof.Claims

/-! ### Commands -/

/-- Which command finds which error (60_exceptions.md R160, codes 2 to 4). -/
theorem commandError_cases {i : Instr} {s : State} {c : ErrCode} (h : commandError i s = some c) :
    (c = .invZero ∧ i = .ginv 0) ∨ (c = .tableInvalid ∧ needsCommitted i = true) ∨
      (c = .notBijective ∧ ∃ k, i = .tcommit k) := by
  have table {k : Slot} (hk : tableCheck k s = some c) : c = .tableInvalid := by
    unfold tableCheck at hk; split at hk <;> cases hk; rfl
  cases i
  case ginv a => simp only [commandError] at h; split at h <;> simp_all
  case tcommit k => simp only [commandError] at h; split at h <;> simp_all
  case tird k a => exact .inr (.inl ⟨table h, rfl⟩)
  case sub k => exact .inr (.inl ⟨table h, rfl⟩)
  case isub k => exact .inr (.inl ⟨table h, rfl⟩)
  case enc k => exact .inr (.inl ⟨table h, rfl⟩)
  case dec k => exact .inr (.inl ⟨table h, rfl⟩)
  all_goals cases h

/-- The word `w` raises the error `c` in some state (60_exceptions.md R160). -/
def ErrCode.RaisedBy (c : ErrCode) (w : Word) : Prop :=
  match c with
  | .illegalCmd => decode w = none
  | .invZero => decode w = some (.ginv 0)
  | .tableInvalid => ∃ i, decode w = some i ∧ needsCommitted i = true
  | .notBijective => ∃ k, decode w = some (.tcommit k)

theorem raisedBy_of_commandError {w : Word} {i : Instr} {s : State} {c : ErrCode} (hw : decode w = some i)
    (h : commandError i s = some c) : c.RaisedBy w := by
  rcases commandError_cases h with ⟨rfl, rfl⟩ | ⟨rfl, hn⟩ | ⟨rfl, k, rfl⟩
  · exact hw
  · exact ⟨i, hw, hn⟩
  · exact ⟨k, hw⟩

/-- Everything issuing a word can do (60_exceptions.md R164): raise an error in that word, or run a command whose check passes. -/
theorem issueCommand_cases {w : Word} {s t : State} (h : issueCommand w s = .next t) :
    (∃ c : ErrCode, c.RaisedBy w ∧ t = raiseError c w s) ∨
      ∃ i, decode w = some i ∧ commandError i s = none ∧ exec i s = .next t := by
  cases hw : decode w with
  | none =>
    rw [issueCommand_of_illegal hw] at h
    cases h
    exact .inl ⟨.illegalCmd, hw, rfl⟩
  | some i =>
    rw [issueCommand_of_decode hw] at h
    cases hc : commandError i s with
    | none => exact .inr ⟨i, rfl, hc, h⟩
    | some c =>
      rw [exec_of_error hc, encode_of_decode hw] at h
      cases h
      exact .inl ⟨c, raisedBy_of_commandError hw hc, rfl⟩

/-- What no command word changes. -/
theorem issueCommand_frame {w : Word} {s t : State} (h : issueCommand w s = .next t) :
    t.p1 = s.p1 ∧ t.p2 = s.p2 ∧ t.phase = s.phase := by
  rcases issueCommand_cases h with ⟨c, _, rfl⟩ | ⟨i, _, _, he⟩
  · simp
  · obtain ⟨hp1, hp2, hphase, _⟩ := exec_frame he
    exact ⟨hp1, hp2, hphase⟩

/-- A command whose check passes leaves the error report as it was, but for CLRERR (60_exceptions.md R162, R167). -/
theorem exec_report_of_noError {i : Instr} {s t : State} (hc : commandError i s = none) (h : exec i s = .next t) :
    (i = .clrerr ∧ t = clearError s) ∨ (t.err = s.err ∧ t.errcmd = s.errcmd) := by
  rcases exec_of_noError hc with ⟨_, e⟩ | ⟨hi, e⟩ | ⟨_, r, e⟩ | ⟨_, b, e⟩ | ⟨k, c, _, _, e⟩ <;>
    (rw [e] at h; cases h)
  case inr.inl => exact .inl ⟨hi, rfl⟩
  all_goals exact .inr ⟨rfl, rfl⟩

/-- RES is written only by a successful field command, TRD or TIRD (10_state.md R26). -/
theorem exec_res {i : Instr} {s t : State} (h : exec i s = .next t) :
    t.res = s.res ∨ commandError i s = none ∧ (family i = .field ∨ ∃ k a, i = .trd k a ∨ i = .tird k a) := by
  cases hc : commandError i s with
  | some c => rw [exec_of_error hc] at h; cases h; simp
  | none =>
    rcases exec_of_noError hc with ⟨_, e⟩ | ⟨_, e⟩ | ⟨hi, r, e⟩ | ⟨_, b, e⟩ | ⟨k, c, _, _, e⟩ <;>
      (rw [e] at h; cases h)
    case none.inr.inr.inl.refl => exact .inr ⟨rfl, hi⟩
    all_goals exact .inl rfl

theorem coherent_of_not_valid {c : SlotState} (h : c.valid = false) : c.Coherent := fun hv => by simp [h] at hv

theorem isBijection_identityTable : IsBijection identityTable := fun v => by simp

/-- The slot that TIDENT loads keeps the promise of 10_state.md R30. -/
theorem identity_coherent : SlotState.Coherent { t := identityTable, tinv := identityTable, valid := true } :=
  fun _ => ⟨isBijection_identityTable, fun x => by simp⟩

/-- The slot that TCOMMIT leaves keeps the promise of 10_state.md R30. -/
theorem commit_coherent {c : SlotState} (h : bijective c.t = true) :
    SlotState.Coherent { c with tinv := deriveInverse c.t c.tinv, valid := true } := by
  simp only [SlotState.Coherent]
  exact fun _ => ⟨(bijective_iff c.t).1 h, lookup_deriveInverse (injective_of_bijective h) c.tinv⟩

/-- What a command can do to a slot (41_tables.md R90): nothing, or it is a table command on that slot, which either uncommits
it or is a TIDENT or a TCOMMIT of a bijection and leaves the slot keeping the promise of 10_state.md R30. -/
theorem exec_slot {i : Instr} {s t : State} (h : exec i s = .next t) (j : Slot) :
    t.slot j = s.slot j ∨
      (family i = .table ∧ slotOperand i = some j ∧
        (((∃ a b, i = .twr j a b ∨ i = .tswap j a b) ∧ (t.slot j).valid = false) ∨
          (i = .tident j ∨ i = .tcommit j ∧ IsBijection (s.slot j).t) ∧ (t.slot j).Coherent)) := by
  cases hc : commandError i s with
  | some c => rw [exec_of_error hc] at h; cases h; exact .inl (slot_raiseError ..)
  | none =>
    rcases exec_of_noError hc with ⟨_, e⟩ | ⟨_, e⟩ | ⟨_, r, e⟩ | ⟨_, b, e⟩ | ⟨k, c, hi, _, e⟩
    case inr.inr.inr.inr =>
      by_cases hj : j = k
      case neg => rw [e] at h; cases h; exact .inl (slot_setSlot_other s c hj)
      subst hj
      right
      rcases hi with ⟨⟨a, b, rfl | rfl⟩, hv⟩ | ⟨rfl | rfl, _⟩
      · rw [e] at h; cases h
        exact ⟨rfl, rfl, .inl ⟨⟨a, b, .inl rfl⟩, by simpa using hv⟩⟩
      · rw [e] at h; cases h
        exact ⟨rfl, rfl, .inl ⟨⟨a, b, .inr rfl⟩, by simpa using hv⟩⟩
      · cases h
        exact ⟨rfl, rfl, .inr ⟨.inl rfl, by simpa using identity_coherent⟩⟩
      · have hb : bijective (s.slot j).t = true := by simpa [commandError] using hc
        simp only [exec, execTcommit, commitSlot, hb, if_true] at h
        cases h
        exact ⟨rfl, rfl, .inr ⟨.inr ⟨rfl, (bijective_iff _).1 hb⟩, by simpa using commit_coherent hb⟩⟩
    all_goals rw [e] at h; cases h; exact .inl rfl

/-! ### Steps -/

/-- The kinds of step: one that leaves the report, the slots and, but for a reset asserted, the phase; a command word; the end
of a reset; a loss of power. -/
theorem step_kinds {s t : State} (h : step s = .next t) :
    (t.err = s.err ∧ t.errcmd = s.errcmd ∧ t.slots = s.slots ∧ (t.phase = s.phase ∨ t.phase = .inReset) ∧
        ¬ losesPower s) ∨
    (∃ w rest, s.events = .access (.write 0x08 (.b32 w)) :: rest ∧ issueCommand w { s with events := rest } = .next t) ∨
    (endsReset s ∧ ∃ rest, t = releaseReset { s with events := rest }) ∨
    (losesPower s ∧ ∃ rest, t = losePower { s with events := rest }) := by
  rcases step_cases h with ⟨he, rfl⟩ | ⟨off, rest, o, he, rfl⟩ | hcmd | ⟨rest, ⟨off, d, he⟩, rfl | ⟨b, rfl⟩⟩ |
    ⟨b, rest, he, rfl⟩ | ⟨rest, he, rfl⟩
  · left; simp [losesPower, he]
  · left; simp [losesPower, he]
  · exact .inr (.inl hcmd)
  · left; simp [losesPower, he]
  · left; simp [losesPower, he]
  · rcases setResetLine_cases b { s with events := rest } with ⟨_, e⟩ | ⟨rfl, hp, e⟩ | ⟨_, _, e⟩
    · left; simp [losesPower, he, e]
    · exact .inr (.inr (.inl ⟨⟨hp, rest, he⟩, rest, e⟩))
    · left; simp [losesPower, he, e]
  · exact .inr (.inr (.inr ⟨⟨rest, he⟩, rest, rfl⟩))

/-- A step keeps the synthesis parameters (10_state.md R22). -/
theorem step_params {s t : State} (h : step s = .next t) : t.p1 = s.p1 ∧ t.p2 = s.p2 := by
  rcases step_cases h with ⟨_, rfl⟩ | ⟨off, rest, o, _, rfl⟩ | ⟨w, rest, _, hw⟩ | ⟨rest, _, rfl | ⟨b, rfl⟩⟩ |
    ⟨b, rest, _, rfl⟩ | ⟨rest, _, rfl⟩
  case inr.inr.inl => obtain ⟨hp1, hp2, _⟩ := issueCommand_frame hw; exact ⟨hp1, hp2⟩
  case inr.inr.inr.inr.inl =>
    rcases setResetLine_cases b { s with events := rest } with ⟨_, e⟩ | ⟨_, _, e⟩ | ⟨_, _, e⟩ <;> simp [e]
  all_goals exact ⟨rfl, rfl⟩

/-- A block runs after a step only if the step ended a reset, or it ran before and kept its power (60_exceptions.md R174). -/
theorem step_to_running {s t : State} (h : step s = .next t) (ht : t.phase = .running) :
    endsReset s ∨ (s.phase = .running ∧ ¬ losesPower s) := by
  rcases step_kinds h with ⟨_, _, _, hp | hp, hl⟩ | ⟨w, rest, he, hw⟩ | ⟨hr, _⟩ | ⟨_, rest, rfl⟩
  · exact .inr ⟨hp ▸ ht, hl⟩
  · rw [hp] at ht; cases ht
  · obtain ⟨_, _, hp⟩ := issueCommand_frame hw
    exact .inr ⟨hp ▸ ht, by simp [losesPower, he]⟩
  · exact .inl hr
  · exact absurd ht (losePower_not_running _)

/-- Invariants of the running block (60_exceptions.md R174): what the end of a reset sets up, and every step but a loss of power
keeps, holds in a block that runs after the step if it held in one that ran before. -/
theorem step_keeps_running {P : State → Prop} {s t : State} (h : step s = .next t) (hreset : endsReset s → P t)
    (hkeep : P s → ¬ losesPower s → P t) (hs : s.phase = .running → P s) (ht : t.phase = .running) : P t := by
  rcases step_to_running h ht with hr | ⟨hp, hl⟩
  · exact hreset hr
  · exact hkeep (hs hp) hl

/-- What a step can do to the error report (10_state.md R24, R25): nothing; clear it, by CLRERR or at the end of a reset; lose it with the
power; or, with no error recorded, record the error of the command word it took. -/
theorem step_report {s t : State} (h : step s = .next t) :
    (t.err = s.err ∧ t.errcmd = s.errcmd) ∨
    ((issues s .clrerr ∨ endsReset s) ∧ t.err = 0 ∧ t.errcmd = 0) ∨
    losesPower s ∨
    (s.err = 0 ∧ ∃ (c : ErrCode) (w : Word) (rest : List Event),
      s.events = .access (.write 0x08 (.b32 w)) :: rest ∧ c.RaisedBy w ∧ t.err = c.code ∧ t.errcmd = w) := by
  rcases step_kinds h with ⟨he, hc, _⟩ | ⟨w, rest, hev, hw⟩ | ⟨hr, rest, rfl⟩ | ⟨hl, _⟩
  · exact .inl ⟨he, hc⟩
  · rcases issueCommand_cases hw with ⟨c, hraised, rfl⟩ | ⟨i, hi, hc, he⟩
    · rcases raiseError_cases c w { s with events := rest } with ⟨h0, e⟩ | ⟨_, e⟩
      · exact .inr (.inr (.inr ⟨h0, c, w, rest, hev, hraised, by rw [e], by rw [e]⟩))
      · exact .inl ⟨by rw [e], by rw [e]⟩
    · rcases exec_report_of_noError hc he with ⟨rfl, rfl⟩ | hsame
      · exact .inr (.inl ⟨.inl ⟨w, rest, hev, hi⟩, rfl, rfl⟩)
      · exact .inl hsame
  · exact .inr (.inl ⟨.inr hr, rfl, rfl⟩)
  · exact .inr (.inr (.inl hl))

/-- What a step can do to a slot: nothing; what a table command on it does; uncommit it at the end of a reset; or lose it with the power. -/
theorem step_slot {s t : State} (h : step s = .next t) (k : Slot) :
    t.slot k = s.slot k ∨
    ((∃ i, issues s i ∧ family i = .table ∧ slotOperand i = some k) ∧ (t.slot k).Coherent) ∨
    (endsReset s ∧ (t.slot k).valid = false) ∨
    losesPower s := by
  rcases step_kinds h with ⟨_, _, hs, _⟩ | ⟨w, rest, hev, hw⟩ | ⟨hr, rest, rfl⟩ | ⟨hl, _⟩
  · exact .inl (by simp only [State.slot, hs])
  · rcases issueCommand_cases hw with ⟨c, _, rfl⟩ | ⟨i, hi, _, he⟩
    · exact .inl (by simp)
    · rcases exec_slot he k with hsame | ⟨hf, ho, hslot⟩
      · exact .inl hsame
      · refine .inr (.inl ⟨⟨i, ⟨w, rest, hev, hi⟩, hf, ho⟩, ?_⟩)
        rcases hslot with ⟨_, hv⟩ | ⟨_, hcoh⟩
        · exact coherent_of_not_valid hv
        · exact hcoh
  · exact .inr (.inr (.inl ⟨hr, by rw [slot_releaseReset]; rfl⟩))
  · exact .inr (.inr (.inr hl))

end Sys2Proof.Machine
end

section
/-! PROOFS. The two invariants of 10_state.md: the error report is legal (R25), and VALID keeps its promise (R30). -/

namespace Sys2Proof.Machine

open Sys2Proof.Claims

/-- A legal report is a clear one, or an error code with a word that raises it. -/
theorem errorRecord_iff (s : State) :
    s.ErrorRecord ↔ (s.err = 0 ∧ s.errcmd = 0) ∨ ∃ c : ErrCode, s.err = c.code ∧ c.RaisedBy s.errcmd := by
  constructor
  · rintro (h | h | h | h | h)
    · exact .inl h
    · exact .inr ⟨.illegalCmd, h⟩
    · exact .inr ⟨.invZero, h⟩
    · exact .inr ⟨.tableInvalid, h⟩
    · exact .inr ⟨.notBijective, h⟩
  · rintro (h | ⟨c, h⟩)
    · exact .inl h
    · cases c with
      | illegalCmd => exact .inr (.inl h)
      | invZero => exact .inr (.inr (.inl h))
      | tableInvalid => exact .inr (.inr (.inr (.inl h)))
      | notBijective => exact .inr (.inr (.inr (.inr h)))

theorem errCode_code_le (c : ErrCode) : c.code.toNat ≤ 4 := by
  cases c <;> decide

theorem errCode_code_ne_zero (c : ErrCode) : c.code ≠ 0 := by
  cases c <;> decide

/-- The codes 5 to 15 are never produced (60_exceptions.md R160). -/
theorem err_le_of_errorRecord {s : State} (h : s.ErrorRecord) : s.err.toNat ≤ 4 := by
  rcases (errorRecord_iff s).1 h with ⟨he, _⟩ | ⟨c, he, _⟩
  · simp [he]
  · rw [he]; exact errCode_code_le c

theorem step_errorRecord {s t : State} (h : step s = .next t) (hs : s.ErrorRecord) (hl : ¬ losesPower s) :
    t.ErrorRecord := by
  rw [errorRecord_iff] at hs ⊢
  rcases step_report h with ⟨he, hc⟩ | ⟨_, hclear⟩ | hlost | ⟨_, c, w, _, _, hraised, he, hc⟩
  · rwa [he, hc]
  · exact .inl hclear
  · exact absurd hlost hl
  · exact .inr ⟨c, he, hc ▸ hraised⟩

/-- What the end of a reset leaves: the released block. -/
theorem step_endsReset {s t : State} (hr : endsReset s) (h : step s = .next t) :
    ∃ rest, t = releaseReset { s with events := rest } := by
  obtain ⟨hp, rest, he⟩ := hr
  rw [step_event he] at h
  cases h
  exact ⟨rest, by simp [setResetLine, hp]⟩

/-- Settles O42: a report changes only by being cleared or by taking the code and the word of the error just raised. -/
theorem stepKeepsTheErrorRecord : Obligations.StepKeepsTheErrorRecord := by
  intro s t h
  have withBound (ht : t.ErrorRecord) : t.ErrorRecord ∧ t.err.toNat ≤ 4 := ⟨ht, err_le_of_errorRecord ht⟩
  refine ⟨fun hs hl => withBound (step_errorRecord h hs hl), fun hs ht => withBound ?_⟩
  refine step_keeps_running h (fun hr => ?_) (step_errorRecord h) hs ht
  obtain ⟨rest, rfl⟩ := step_endsReset hr h
  exact .inl ⟨rfl, rfl⟩

theorem step_coherent {s t : State} (h : step s = .next t) (hs : s.Coherent) (hl : ¬ losesPower s) : t.Coherent := by
  intro k
  rcases step_slot h k with hsame | ⟨_, hcoh⟩ | ⟨_, hv⟩ | hlost
  · rw [hsame]; exact hs k
  · exact hcoh
  · exact coherent_of_not_valid hv
  · exact absurd hlost hl

theorem slot_reset_valid (k : Slot) : (State.reset.slot k).valid = false := by
  simp [State.slot, State.reset]

/-- Settles O55: a slot that a step touches is uncommitted by it, or holds the identity, or a bijection with its derived inverse. -/
theorem stepKeepsCommittedSlotsCoherent : Obligations.StepKeepsCommittedSlotsCoherent := by
  refine ⟨fun s t h => ⟨step_coherent h, fun hs ht => ?_⟩, fun i k s t h h0 h1 => ?_, fun k a b s t h => ?_, fun k => ?_⟩
  · refine step_keeps_running h (fun hr k => ?_) (step_coherent h) hs ht
    obtain ⟨rest, rfl⟩ := step_endsReset hr h
    exact coherent_of_not_valid (by rw [slot_releaseReset]; rfl)
  · rcases exec_slot h k with hsame | ⟨_, _, ⟨_, hv⟩ | hcommitted⟩
    · rw [hsame, h0] at h1; cases h1
    · rw [hv] at h1; cases h1
    · exact hcommitted
  · rcases h with h | h <;> cases h <;> simp
  · exact coherent_of_not_valid (slot_reset_valid k)

end Sys2Proof.Machine
end

section
/-! PROOFS. The fields of the STATUS, CFG and RES words, the words of BLK, and the register map of 10_state.md R20. -/

namespace Sys2Proof.Machine

open Sys2Proof.Claims

/-! ### Fields of a word -/

/-- The fields of the STATUS word (10_state.md R24). -/
theorem statusWord_fields (s : State) :
    (statusWord s).extractLsb' 0 4 = s.err ∧ (statusWord s).extractLsb' 4 4 = 0#4 ∧
      (∀ k : Slot, (statusWord s).getLsbD (8 + (slotIndex k).val) = (s.slot k).valid) ∧
      (statusWord s).extractLsb' 11 21 = 0#21 := by
  unfold statusWord
  refine ⟨?_, ?_, fun k => ?_, ?_⟩
  · exact BitVec.extractLsb'_append_eq_right
  · rw [BitVec.extractLsb'_append_eq_of_le (by decide)]
    exact BitVec.extractLsb'_append_eq_right
  · cases k <;> simp only [slotIndex, BitVec.getLsbD_append] <;> simp [State.slot, slotIndex]
  · iterate 4 rw [BitVec.extractLsb'_append_eq_of_le (by decide)]
    exact BitVec.extractLsb'_append_eq_left

/-- The fields of the CFG word (10_state.md R22). -/
theorem cfgWord_fields (s : State) :
    (cfgWord s).extractLsb' 0 8 = s.p1 ∧ (cfgWord s).extractLsb' 8 8 = s.p2 ∧ (cfgWord s).extractLsb' 16 2 = 3#2 ∧
      (cfgWord s).extractLsb' 18 1 = 0#1 ∧ (cfgWord s).extractLsb' 19 1 = 0#1 ∧ (cfgWord s).extractLsb' 20 12 = 0#12 := by
  unfold cfgWord
  refine ⟨?_, ?_, ?_, ?_, ?_, ?_⟩
  · exact BitVec.extractLsb'_append_eq_right
  · rw [BitVec.extractLsb'_append_eq_of_le (by decide)]
    exact BitVec.extractLsb'_append_eq_right
  · iterate 2 rw [BitVec.extractLsb'_append_eq_of_le (by decide)]
    exact BitVec.extractLsb'_append_eq_right
  · iterate 3 rw [BitVec.extractLsb'_append_eq_of_le (by decide)]
    exact BitVec.extractLsb'_append_eq_right
  · iterate 4 rw [BitVec.extractLsb'_append_eq_of_le (by decide)]
    exact BitVec.extractLsb'_append_eq_right
  · iterate 4 rw [BitVec.extractLsb'_append_eq_of_le (by decide)]
    exact BitVec.extractLsb'_append_eq_left

/-- The bytes of BLKk, byte 4k in bits 7:0 (10_state.md R27). -/
theorem blkWord_bytes (b : Block) (k : Fin 4) :
    (blkWord b k).extractLsb' 0 8 = b[4 * k.val] ∧ (blkWord b k).extractLsb' 8 8 = b[4 * k.val + 1] ∧
      (blkWord b k).extractLsb' 16 8 = b[4 * k.val + 2] ∧ (blkWord b k).extractLsb' 24 8 = b[4 * k.val + 3] := by
  unfold blkWord
  refine ⟨?_, ?_, ?_, ?_⟩
  · exact BitVec.extractLsb'_append_eq_right
  · rw [BitVec.extractLsb'_append_eq_of_le (by decide)]
    exact BitVec.extractLsb'_append_eq_right
  · iterate 2 rw [BitVec.extractLsb'_append_eq_of_le (by decide)]
    exact BitVec.extractLsb'_append_eq_right
  · iterate 2 rw [BitVec.extractLsb'_append_eq_of_le (by decide)]
    exact BitVec.extractLsb'_append_eq_left

/-! ### The register map -/

theorem regOffset_of_regAt {off : Nat} {r : Reg} (h : regAt off = some r) : off = regOffset r := by
  unfold regAt at h
  split at h <;> cases h <;> rfl

theorem mapValue_regOffset (r : Reg) (s : State) : mapValue (regOffset r) s = readReg r s := by
  cases r
  case blk k => revert k; simp [Fin.forall_fin_succ, regOffset, mapValue, readReg, blkWord]
  all_goals rfl

/-- Reserved offsets read 0 (10_state.md R28). -/
theorem mapValue_reserved {off : Nat} (h : regAt off = none) (s : State) : mapValue off s = 0 := by
  have hne (r : Reg) : off ≠ regOffset r := by rintro rfl; simp [regAt_regOffset] at h
  rw [mapValue, if_neg (show off ≠ 0x00 from hne .id), if_neg (show off ≠ 0x04 from hne .cfg),
    if_neg (show off ≠ 0x0C from hne .status), if_neg (show off ≠ 0x10 from hne .errcmd),
    if_neg (show off ≠ 0x14 from hne .res), if_neg (show off ≠ 0x20 from hne (.blk 0)),
    if_neg (show off ≠ 0x24 from hne (.blk 1)), if_neg (show off ≠ 0x28 from hne (.blk 2)),
    if_neg (show off ≠ 0x2C from hne (.blk 3))]

/-- The model's read follows the map of 10_state.md R20. -/
theorem readOffset_eq_mapValue (off : Nat) (s : State) : readOffset off s = mapValue off s := by
  cases h : regAt off with
  | none => simp [readOffset, h, mapValue_reserved h]
  | some r =>
    simp only [readOffset, h]
    rw [regOffset_of_regAt h, mapValue_regOffset]

theorem alignedOffset_natCast {off : Nat} (h : off % 4 = 0) : alignedOffset (off : Int) = some off := by
  simp [alignedOffset, h]

theorem inWindow_natCast {off : Nat} (h : off < 64) : inWindow (off : Int) = true := by
  simp only [inWindow, Bool.and_eq_true, decide_eq_true_eq]
  omega

/-- A legal read in a running block (20_memory.md R42, R46). -/
theorem step_read {s : State} {off : Nat} {rest : List Event} (hp : s.phase = .running) (hlt : off < 64) (h4 : off % 4 = 0)
    (he : s.events = .access (.read off .w32) :: rest) :
    step s = .next (answer (readOffset off { s with events := rest }) { s with events := rest }) := by
  simp [step_access hp he, performAccess, Access.off, inWindow_natCast hlt, windowAccess, alignedOffset_natCast h4]

/-- A legal write in a running block (20_memory.md R42, R45). -/
theorem step_write {s : State} {off : Nat} {v : Word} {rest : List Event} (hp : s.phase = .running) (hlt : off < 64)
    (h4 : off % 4 = 0) (he : s.events = .access (.write off (.b32 v)) :: rest) :
    step s = writeOffset off v { s with events := rest } := by
  simp [step_access hp he, performAccess, Access.off, inWindow_natCast hlt, windowAccess, alignedOffset_natCast h4]

/-- Only CMD and the BLK words take a write (10_state.md R20, R28). -/
theorem writeOffset_ignored {off : Nat} (hcmd : off ≠ 0x08) (hblk : ¬ (0x20 ≤ off ∧ off < 0x30)) (v : Word) (s : State) :
    writeOffset off v s = .next s := by
  cases hr : regAt off with
  | none => simp [writeOffset, hr]
  | some r =>
    have hoff := regOffset_of_regAt hr
    cases r with
    | cmd => exact absurd hoff hcmd
    | blk k => simp only [regOffset] at hoff; omega
    | id | cfg | status | errcmd | res => simp [writeOffset, hr, writeReg]

theorem writeOffset_blk (k : Fin 4) (v : Word) (s : State) :
    writeOffset (regOffset (.blk k)) v s = .next (s.setBlk (setBlkWord s.blk k v)) := by
  simp [writeOffset, regAt_regOffset, writeReg]

end Sys2Proof.Machine
end

section
/-! PROOFS. The registers of 10_state.md: what each reads, what writes it, and what reset leaves. -/

namespace Sys2Proof.Machine

open Sys2Proof.Claims

/-- Settles O47: the report and the slots change only as `step_report` and `step_slot` list. -/
theorem statusFieldsChangeOnlyAsListed : Obligations.StatusFieldsChangeOnlyAsListed := by
  intro s
  obtain ⟨herr, hzero, hvalid, hhigh⟩ := statusWord_fields s
  refine ⟨herr, hzero, hvalid, hhigh, fun _ => rfl, rfl, fun k => by rw [slot_releaseReset]; rfl, fun t h => ⟨?_, ?_⟩⟩
  · intro h0 hne
    rcases step_report h with ⟨he, _⟩ | ⟨hclr | hr, _⟩ | hl | ⟨hz, _⟩
    · exact absurd he hne
    · exact .inl hclr
    · exact .inr (.inl hr)
    · exact .inr (.inr hl)
    · exact absurd hz h0
  · intro k hne
    rcases step_slot h k with hsame | ⟨hi, _⟩ | ⟨hr, _⟩ | hl
    · exact absurd (congrArg SlotState.valid hsame) hne
    · exact .inl hi
    · exact .inr (.inl hr)
    · exact .inr (.inr hl)

/-- Settles O48: an error is recorded together with the word that raised it. -/
theorem errcmdHoldsTheWordThatSetErr : Obligations.ErrcmdHoldsTheWordThatSetErr := by
  intro s
  refine ⟨rfl, fun _ => rfl, fun t h => by cases h; rfl, rfl, fun t h => ⟨?_, ?_⟩⟩
  · intro h0 hne
    rcases step_report h with ⟨he, _⟩ | ⟨_, he, _⟩ | hl | ⟨_, _, w, rest, hev, _, _, hc⟩
    · exact absurd (he.trans h0) hne
    · exact absurd he hne
    · exact .inl hl
    · exact .inr ⟨w, rest, hev, hc⟩
  · intro hne
    rcases step_report h with ⟨_, hc⟩ | ⟨hclr | hr, _⟩ | hl | ⟨h0, c, _, _, _, _, he, _⟩
    · exact absurd hc hne
    · exact .inr (.inl hclr)
    · exact .inr (.inr (.inl hr))
    · exact .inr (.inr (.inr hl))
    · exact .inl ⟨h0, he ▸ errCode_code_ne_zero c⟩

/-- Settles O44: a legal read answers the register map, and the map does not look at the events. -/
theorem readsFollowTheRegisterMap : Obligations.ReadsFollowTheRegisterMap := by
  intro s off rest hp hlt h4 he
  rw [step_read hp hlt h4 he, readOffset_eq_mapValue]
  rfl

/-- Settles O45: an offset of BLK is the offset of one BLKk, whose write replaces four bytes. -/
theorem writesHaveOnlyTheirEffect : Obligations.WritesHaveOnlyTheirEffect := by
  intro s off v rest hp hlt h4 he
  rw [step_write hp hlt h4 he]
  refine ⟨fun hcmd hblk => writeOffset_ignored hcmd hblk v _, fun hlo hhi => ?_⟩
  obtain ⟨k, rfl⟩ : ∃ k : Fin 4, off = regOffset (.blk k) :=
    ⟨⟨(off - 0x20) / 4, by omega⟩, by simp only [regOffset]; omega⟩
  refine ⟨_, writeOffset_blk k v _, fun i => ?_, rfl, ?_⟩
  · have hword : i.val / 4 = k.val ↔ 4 * (i.val / 4) = regOffset (.blk k) - 0x20 := by simp only [regOffset]; omega
    simp [setBlkWord, hword]
  · rw [mapValue_regOffset]
    exact blkWord_setBlkWord_same ..

/-- Settles O46: the CFG word is made of constants and of P1 and P2, which no step writes. -/
theorem cfgReadsTheParametersAndNeverChanges : Obligations.CfgReadsTheParametersAndNeverChanges := by
  intro s
  obtain ⟨hp1, hp2, hslots, hkmode, horder, hreserved⟩ := cfgWord_fields s
  refine ⟨hp1, hp2, hslots, hkmode, horder, hreserved, fun _ => rfl, fun t h => ?_⟩
  obtain ⟨h1, h2⟩ := step_params h
  simp [readReg, cfgWord, State.RoundsLegal, h1, h2]

/-- Settles O49: by `exec_res`, which lists the commands that write RES. -/
theorem resIsWrittenOnlyByResultCommands : Obligations.ResIsWrittenOnlyByResultCommands := by
  intro s
  refine ⟨BitVec.extractLsb'_append_eq_right, BitVec.extractLsb'_append_eq_left, fun _ => rfl, fun i t h hne => ?_⟩
  rcases exec_res h with hsame | hwritten
  · exact absurd hsame hne
  · exact hwritten

/-- Settles O50: the bytes of a packed word, and a word read after a write of the same and of another word. -/
theorem blkWordsPackLittleEndian : Obligations.BlkWordsPackLittleEndian := by
  intro b k v
  obtain ⟨h0, h1, h2, h3⟩ := blkWord_bytes b k
  exact ⟨h0, h1, h2, h3, blkWord_setBlkWord_same b k v, fun _ hj => blkWord_setBlkWord_other b v hj⟩

/-- The reset values of 10_state.md R35. -/
structure State.HoldsResetValues (s : State) : Prop where
  err : s.err = 0
  errcmd : s.errcmd = 0
  res : s.res = 0
  blk : s.blk = tabulate fun _ => 0
  valid (k : Slot) : (s.slot k).valid = false

theorem reset_holdsResetValues : State.reset.HoldsResetValues :=
  ⟨rfl, rfl, rfl, rfl, slot_reset_valid⟩

theorem releaseReset_holdsResetValues (s : State) : (releaseReset s).HoldsResetValues :=
  ⟨rfl, rfl, rfl, rfl, fun k => by rw [slot_releaseReset]; rfl⟩

theorem readReg_of_resetValues {s : State} (h : s.HoldsResetValues) :
    readReg .status s = 0 ∧ readReg .errcmd s = 0 ∧ readReg .res s = 0 ∧ ∀ k, readReg (.blk k) s = 0 := by
  refine ⟨?_, h.errcmd, ?_, fun k => ?_⟩
  · have h0 : s.slots[0].valid = false := h.valid .s0
    have h1 : s.slots[1].valid = false := h.valid .s1
    have h2 : s.slots[2].valid = false := h.valid .s2
    rw [readReg, statusWord, h.err, h0, h1, h2]
    rfl
  · simp [readReg, h.res]
  · simp [readReg, blkWord, h.blk]

/-- Settles O57: a power-on and a later reset leave the same values in every register. -/
theorem resetLeavesTheStatedValues : Obligations.ResetLeavesTheStatedValues := by
  intro s hs
  have hv : s.HoldsResetValues := by
    rcases hs with rfl | ⟨u, hr, h⟩
    · exact reset_holdsResetValues
    · obtain ⟨rest, rfl⟩ := step_endsReset hr h
      exact releaseReset_holdsResetValues _
  obtain ⟨hstatus, herrcmd, hres, hblk⟩ := readReg_of_resetValues hv
  refine ⟨rfl, rfl, ?_, hv.err, hv.valid, hv.errcmd, hv.res, fun i => by simp [hv.blk]⟩
  simp only [List.forall_mem_cons]
  exact ⟨hstatus, herrcmd, hres, hblk 0, hblk 1, hblk 2, hblk 3, by simp⟩

end Sys2Proof.Machine
end

section
/-! PROOFS. What an access of the host can come to (20_memory.md R41, R42, R45), where a step stops, and steps in a row. -/

namespace Sys2Proof.Machine

open Sys2Proof.Claims

/-! ### The window -/

/-- The window is 64 bytes long (20_memory.md R41). -/
theorem inWindow_iff (off : Int) : inWindow off = true ↔ 0 ≤ off ∧ off < 64 := by
  simp [inWindow]

/-- The offset of a bus address, as a signed distance from BASE, is in the window when the address is (20_memory.md R41). -/
theorem inWindow_address_iff (addr : Nat) :
    inWindow ((addr : Int) - Config.base) = true ↔ Config.base ≤ addr ∧ addr < Config.base + 64 := by
  rw [inWindow_iff]
  omega

theorem performAccess_inside {a : Access} (h : inWindow a.off = true) (s : State) :
    performAccess a s = windowAccess a s :=
  if_pos h

theorem performAccess_outside {a : Access} (h : ¬ inWindow a.off = true) (s : State) :
    performAccess a s = .refused .outsideWindow :=
  if_neg h

/-! ### Legal accesses complete, illegal ones fault -/

theorem issueCommand_total (w : Word) (s : State) : ∃ t, issueCommand w s = .next t ∧ t.events = s.events := by
  cases hw : decode w with
  | none => exact ⟨_, issueCommand_of_illegal hw s, raiseError_events ..⟩
  | some i =>
    obtain ⟨t, ht⟩ := exec_total i s
    obtain ⟨_, _, _, _, hevents, _⟩ := exec_frame ht
    exact ⟨t, (issueCommand_of_decode hw s).trans ht, hevents⟩

/-- Every aligned write completes, whatever it does (20_memory.md R45, 60_exceptions.md R163). -/
theorem writeOffset_total (o : Nat) (v : Word) (s : State) : ∃ t, writeOffset o v s = .next t ∧ t.events = s.events := by
  rcases writeOffset_cases o v s with ⟨_, h⟩ | ⟨k, _, h⟩ | h
  · rw [h]; exact issueCommand_total v s
  · exact ⟨_, h, rfl⟩
  · exact ⟨_, h, rfl⟩

theorem isWordAccess_iff (a : Access) :
    isWordAccess a = true ↔ (∃ off, a = .read off .w32) ∨ ∃ off v, a = .write off (.b32 v) := by
  rcases a with ⟨off, w⟩ | ⟨off, d⟩
  · cases w <;> simp [isWordAccess]
  · cases d <;> simp [isWordAccess]

theorem alignedOffset_eq_some_iff (off : Int) (o : Nat) : alignedOffset off = some o ↔ off.toNat % 4 = 0 ∧ off.toNat = o := by
  simp [alignedOffset]

theorem windowAccess_read {off : Int} {o : Nat} (h : alignedOffset off = some o) (s : State) :
    windowAccess (.read off .w32) s = .next (answer (readOffset o s) s) := by
  simp [windowAccess, Access.off, h]

theorem windowAccess_write {off : Int} {o : Nat} (h : alignedOffset off = some o) (v : Word) (s : State) :
    windowAccess (.write off (.b32 v)) s = writeOffset o v s := by
  simp [windowAccess, Access.off, h]

/-- A 32-bit aligned access completes (20_memory.md R42, R45). -/
theorem windowAccess_of_legal {a : Access} (hw : isWordAccess a = true) (h4 : a.off % 4 = 0) (s : State) :
    ∃ t, windowAccess a s = .next t ∧ t.events = s.events := by
  have haligned : alignedOffset a.off = some a.off.toNat := (alignedOffset_eq_some_iff ..).2 ⟨by omega, rfl⟩
  rcases (isWordAccess_iff a).1 hw with ⟨off, rfl⟩ | ⟨off, v, rfl⟩
  · exact ⟨_, windowAccess_read haligned s, rfl⟩
  · rw [windowAccess_write (off := off) haligned]
    exact writeOffset_total _ v s

/-- An access of another width, or misaligned, is a bus error (20_memory.md R42). -/
theorem windowAccess_of_illegal {a : Access} (h0 : 0 ≤ a.off) (h : isWordAccess a = false ∨ a.off % 4 ≠ 0) (s : State) :
    windowAccess a s = .fault .busError := by
  have multiple {o : Nat} (ho : alignedOffset a.off = some o) : a.off % 4 = 0 := by
    obtain ⟨h4, _⟩ := (alignedOffset_eq_some_iff ..).1 ho
    omega
  rcases windowAccess_cases a s with ⟨off, o, rfl, ho, _⟩ | ⟨off, o, v, rfl, ho, _⟩ | hfault
  · simp [isWordAccess, multiple ho] at h
  · simp [isWordAccess, multiple ho] at h
  · exact hfault

/-! ### Where the machine stops -/

/-- Everything an access of the running block can come to (20_memory.md R41, R42). -/
theorem performAccess_cases (a : Access) (s : State) :
    (¬ (0 ≤ a.off ∧ a.off < 64) ∧ performAccess a s = .refused .outsideWindow) ∨
      ((0 ≤ a.off ∧ a.off < 64) ∧ (isWordAccess a = false ∨ a.off % 4 ≠ 0) ∧ performAccess a s = .fault .busError) ∨
      ∃ t, performAccess a s = .next t := by
  by_cases hin : 0 ≤ a.off ∧ a.off < 64
  · rw [performAccess_inside ((inWindow_iff _).2 hin)]
    by_cases hillegal : isWordAccess a = false ∨ a.off % 4 ≠ 0
    · exact .inr (.inl ⟨hin, hillegal, windowAccess_of_illegal hin.1 hillegal s⟩)
    · obtain ⟨hw, h4⟩ : isWordAccess a = true ∧ a.off % 4 = 0 := by simpa using hillegal
      obtain ⟨t, ht, _⟩ := windowAccess_of_legal hw h4 s
      exact .inr (.inr ⟨t, ht⟩)
  · exact .inl ⟨hin, performAccess_outside (mt (inWindow_iff _).1 hin) s⟩

/-- Everything a step can stop at: an access, and then the phase and the offset say how (20_memory.md R41, R42;
70_reset_and_hazards.md R180; 60_exceptions.md R174). -/
theorem step_stop_cases (s : State) :
    (∃ t, step s = .next t) ∨
    ∃ a rest, s.events = .access a :: rest ∧
      ((s.phase = .running ∧ (0 ≤ a.off ∧ a.off < 64) ∧ (isWordAccess a = false ∨ a.off % 4 ≠ 0) ∧
          step s = .fault .busError) ∨
        (s.phase = .running ∧ ¬ (0 ≤ a.off ∧ a.off < 64) ∧ step s = .refused .outsideWindow) ∨
        (s.phase = .inReset ∧ step s = .refused .accessDuringReset) ∨
        (s.phase = .powerLost ∧ step s = .refused .accessBeforeReset)) := by
  cases he : s.events with
  | nil => exact .inl ⟨_, step_idle he⟩
  | cons e rest =>
    cases e with
    | resetLine b => exact .inl ⟨_, step_event he⟩
    | powerLoss => exact .inl ⟨_, step_event he⟩
    | access a =>
      cases hp : s.phase with
      | inReset => exact .inr ⟨a, rest, rfl, .inr (.inr (.inl ⟨rfl, by simp [step_event he, handleEvent, hp]⟩))⟩
      | powerLost => exact .inr ⟨a, rest, rfl, .inr (.inr (.inr ⟨rfl, by simp [step_event he, handleEvent, hp]⟩))⟩
      | running =>
        rw [step_access hp he]
        rcases performAccess_cases a { s with events := rest } with ⟨hout, h⟩ | ⟨hin, hillegal, h⟩ | hnext
        · exact .inr ⟨a, rest, rfl, .inr (.inl ⟨rfl, hout, h⟩)⟩
        · exact .inr ⟨a, rest, rfl, .inl ⟨rfl, hin, hillegal, h⟩⟩
        · exact .inl hnext

/-! ### Writes of CMD and BLK, and steps in a row -/

theorem writeOffset_cmd (w : Word) (s : State) : writeOffset (regOffset .cmd) w s = issueCommand w s := by
  simp [writeOffset, regAt_regOffset, writeReg]

/-- A write of a legal word to CMD in a running block runs its command (10_state.md R23, 20_memory.md R45). -/
theorem step_write_cmd {s : State} {w : Word} {i : Instr} {rest : List Event} (hp : s.phase = .running)
    (he : s.events = .access (.write 0x08 (.b32 w)) :: rest) (hw : decode w = some i) :
    step s = exec i { s with events := rest } :=
  calc step s = writeOffset (regOffset .cmd) w { s with events := rest } := step_write hp (by decide) (by decide) he
    _ = issueCommand w { s with events := rest } := writeOffset_cmd w _
    _ = exec i { s with events := rest } := issueCommand_of_decode hw _

/-- A write of BLKk in a running block (10_state.md R27). -/
theorem step_write_blk {s : State} (k : Fin 4) {v : Word} {rest : List Event} (hp : s.phase = .running)
    (he : s.events = .access (.write ((0x20 + 4 * k.val : Nat) : Int) (.b32 v)) :: rest) :
    step s = .next { s with blk := setBlkWord s.blk k v, events := rest } :=
  (step_write hp (by omega) (by omega) he).trans (writeOffset_blk k v _)

theorem run_succ_of_step {s t : State} (h : step s = .next t) (n : Nat) :
    Sys2Proof.core.run (n + 1) s = Sys2Proof.core.run n t := by
  have hstep : Sys2Proof.core.step s = .next t := h
  simp only [Host.Core.run, hstep]

end Sys2Proof.Machine
end

section
/-! PROOFS. The statements of 20_memory.md: address decode, bus errors and the order of accesses. -/

namespace Sys2Proof.Machine

open Sys2Proof.Claims

/-- Settles O52: of the outcomes that `step_stop_cases` lists, one is a fault and three are refusals. -/
theorem machineStopsOnlyAtForbiddenAccesses : Obligations.MachineStopsOnlyAtForbiddenAccesses := by
  refine ⟨exec_total, fun s f hf => ?_, fun s r hr => ?_⟩
  · rcases step_stop_cases s with
      ⟨t, h⟩ | ⟨a, rest, he, ⟨hp, ⟨h0, h64⟩, hillegal, _⟩ | ⟨_, _, h⟩ | ⟨_, h⟩ | ⟨_, h⟩⟩
    case inr.inl => exact ⟨a, rest, hp, he, h0, h64, hillegal⟩
    all_goals cases hf.symm.trans h
  · rcases step_stop_cases s with
      ⟨t, h⟩ | ⟨a, rest, he, ⟨_, _, _, h⟩ | ⟨hp, hout, h⟩ | ⟨hp, h⟩ | ⟨hp, h⟩⟩ <;> cases hr.symm.trans h
    · exact ⟨a, rest, he, .inl ⟨rfl, hp, hout⟩⟩
    · exact ⟨a, rest, he, .inr (.inl ⟨rfl, hp⟩)⟩
    · exact ⟨a, rest, he, .inr (.inr ⟨rfl, hp⟩)⟩

/-- Settles O54: three steps in a row, the second on the state the first leaves, the third on the one the command leaves. -/
theorem accessesArePerformedInOrder : Obligations.AccessesArePerformedInOrder := by
  intro s w v i k off rest hp hw hlt h4 he
  obtain ⟨t, ht⟩ :=
    exec_total i { s with blk := setBlkWord s.blk k v, events := .access (.read off .w32) :: rest }
  obtain ⟨_, _, hphase, _, hevents, _⟩ := exec_frame ht
  have hwrite := step_write_blk k hp he
  have hcommand := (step_write_cmd (s := { s with
    blk := setBlkWord s.blk k v
    events := [.access (.write 0x08 (.b32 w)), .access (.read off .w32)] ++ rest }) hp rfl hw).trans ht
  have hread := readsFollowTheRegisterMap t off rest (hphase.trans hp) hlt h4 hevents
  exact ⟨t, ht, (run_succ_of_step hwrite 2).trans ((run_succ_of_step hcommand 1).trans (run_succ_of_step hread 0))⟩

/-- Settles O43: the write reaches CMD, and CMD runs the command of the word. -/
theorem stepRunsTheDecodedCommand : Obligations.StepRunsTheDecodedCommand :=
  fun _ _ _ _ hp he hw => step_write_cmd hp he hw

/-- Settles O51: an access of the window is legal, and completes, or it is a bus error. -/
theorem onlyIllegalAccessesGetABusError : Obligations.OnlyIllegalAccessesGetABusError := by
  intro s a rest hp he h0 h64
  rw [step_access hp he, performAccess_inside ((inWindow_iff _).2 ⟨h0, h64⟩)]
  exact ⟨fun h => windowAccess_of_illegal h0 h _, fun hw h4 => windowAccess_of_legal hw h4 _⟩

/-- Settles O53: the offset is the address less BASE, so the bounds of the window move by BASE. -/
theorem addressDecodeSelectsTheWindow : Obligations.AddressDecodeSelectsTheWindow := by
  refine ⟨Nat.mul_mod_right 64 _, fun addr width data => ?_⟩
  have hwindow := inWindow_address_iff addr
  have hoff (h : Config.base ≤ addr) : (addr : Int) - Config.base = (addr - Config.base : Nat) := (Int.ofNat_sub h).symm
  refine ⟨hwindow, hwindow, fun h => ⟨hoff h, hoff h⟩, fun hout s => ?_⟩
  have houtside := mt hwindow.1 hout
  exact ⟨performAccess_outside (a := readAt addr width) houtside s,
    performAccess_outside (a := writeAt addr data) houtside s⟩

end Sys2Proof.Machine
end

section
/-! PROOFS. The rows of 30_encoding.md R63 select a word by its fields, and a row selects exactly the words that decode to its command. -/

namespace Sys2Proof

/-! ### The rows, by the fields they use -/

/-- The row of a mnemonic, from its OPC and the fields it uses: the mask keeps OPC, RSV and every field the command does not use, and
of these only OPC may be other than 0. -/
def Mnemonic.row (m : Mnemonic) : CommandRow where
  mnemonic := m
  pattern := packFields { opc := m.opc, fa := 0, fb := 0, sl := 0, rsv := 0 }
  mask := packFields
    { opc := BitVec.allOnes 8
      fa := if m.uses.fa then 0 else BitVec.allOnes 8
      fb := if m.uses.fb then 0 else BitVec.allOnes 8
      sl := if m.uses.sl then 0 else BitVec.allOnes 2
      rsv := BitVec.allOnes 6 }
  usesSlot := m.uses.sl

theorem commandRows_eq_map_row : commandRows = allMnemonics.map Mnemonic.row := by decide

theorem mem_allMnemonics (m : Mnemonic) : m ∈ allMnemonics := by
  cases m <;> decide

theorem mem_commandRows_iff (r : CommandRow) : r ∈ commandRows ↔ ∃ m : Mnemonic, m.row = r := by
  simp [commandRows_eq_map_row, mem_allMnemonics]

/-! ### What a row selects -/

theorem packFields_inj {f g : CommandFields} : packFields f = packFields g ↔ f = g :=
  ⟨fun h => by rw [← fieldsOf_packFields f, h, fieldsOf_packFields], congrArg packFields⟩

theorem packFields_and (f g : CommandFields) :
    packFields f &&& packFields g =
      packFields
        { opc := f.opc &&& g.opc
          fa := f.fa &&& g.fa
          fb := f.fb &&& g.fb
          sl := f.sl &&& g.sl
          rsv := f.rsv &&& g.rsv } := by
  simp only [packFields, ← BitVec.and_append]

/-- A mask that leaves a field out when it is used, and keeps it when it is not. -/
theorem and_mask_eq_zero_iff {n : Nat} (x : BitVec n) (used : Bool) :
    x &&& (if used then 0 else BitVec.allOnes n) = 0 ↔ (used = false → x = 0) := by
  cases used <;> simp

theorem mnemonicOfOpc_eq_some_iff (c : Byte) (m : Mnemonic) : mnemonicOfOpc c = some m ↔ c = m.opc :=
  ⟨fun h => (opc_of_mnemonicOfOpc h).symm, fun h => h ▸ mnemonicOfOpc_opc m⟩

theorem exists_slotOfField_iff (sl : BitVec 2) : (∃ k, slotOfField sl = some k) ↔ sl ≠ 3 := by
  rw [← Option.isSome_iff_exists]
  revert sl
  decide

/-- Match and mask of 30_encoding.md R63 are the checks of R64 on the fields: the row's OPC, RSV and every unused field 0. -/
theorem and_row_mask_eq_pattern_iff (m : Mnemonic) (w : Word) :
    w &&& m.row.mask = m.row.pattern ↔
      mnemonicOfOpc (fieldsOf w).opc = some m ∧ (fieldsOf w).rsv = 0 ∧ unusedFieldSet m (fieldsOf w) = false := by
  rw [mnemonicOfOpc_eq_some_iff, unusedFieldSet_eq_false_iff]
  conv_lhs => rw [← packFields_fieldsOf w]
  simp only [Mnemonic.row, packFields_and, packFields_inj, CommandFields.mk.injEq, and_mask_eq_zero_iff, BitVec.and_allOnes]
  tauto

/-- A row selects a word whose fields pass every check of 30_encoding.md R64; a row that does not use SL asks for SL = 0, which names a
slot. -/
theorem row_selects_iff (m : Mnemonic) (w : Word) :
    m.row.selects w = true ↔
      mnemonicOfOpc (fieldsOf w).opc = some m ∧ (fieldsOf w).rsv = 0 ∧ unusedFieldSet m (fieldsOf w) = false ∧
        ∃ k, slotOfField (fieldsOf w).sl = some k := by
  have hslot (hunused : unusedFieldSet m (fieldsOf w) = false) :
      (m.row.usesSlot = false ∨ (fieldsOf w).sl ≠ 3) ↔ ∃ k, slotOfField (fieldsOf w).sl = some k := by
    obtain ⟨_, _, hsl⟩ := (unusedFieldSet_eq_false_iff m _).1 hunused
    rw [exists_slotOfField_iff]
    refine or_iff_right_of_imp fun huses => ?_
    rw [hsl huses]
    decide
  have hselects : m.row.selects w = true ↔
      w &&& m.row.mask = m.row.pattern ∧ (m.row.usesSlot = false ∨ (fieldsOf w).sl ≠ 3) := by
    simp [CommandRow.selects, fieldsOf]
  rw [hselects, and_row_mask_eq_pattern_iff, and_assoc, and_assoc]
  exact and_congr_right fun _ => and_congr_right fun _ => and_congr_right hslot

/-- A word that a row selects decodes to the row's command, with the operands in the word's fields (30_encoding.md R64). -/
theorem decode_of_row_selects {m : Mnemonic} {w : Word} (h : m.row.selects w = true) :
    ∃ k, slotOfField (fieldsOf w).sl = some k ∧ decode w = some (instrOf m (fieldsOf w).fa (fieldsOf w).fb k) := by
  obtain ⟨hopc, hrsv, hunused, k, hk⟩ := (row_selects_iff m w).1 h
  exact ⟨k, hk, (decode_eq_some_iff w _).2 ⟨m, k, hopc, hrsv, hunused, hk, rfl⟩⟩

theorem row_selects_of_decode {w : Word} {i : Instr} (h : decode w = some i) : ∃ m : Mnemonic, m.row.selects w = true := by
  obtain ⟨m, k, hopc, hrsv, hunused, hk, _⟩ := (decode_eq_some_iff w i).1 h
  exact ⟨m, (row_selects_iff m w).2 ⟨hopc, hrsv, hunused, k, hk⟩⟩

/-- No word selects two rows: both rows would have its OPC. -/
theorem mnemonic_eq_of_row_selects {m m' : Mnemonic} {w : Word} (h : m.row.selects w = true) (h' : m'.row.selects w = true) :
    m' = m := by
  obtain ⟨hopc, _⟩ := (row_selects_iff m w).1 h
  obtain ⟨hopc', _⟩ := (row_selects_iff m' w).1 h'
  exact Option.some.inj (hopc'.symm.trans hopc)

theorem wellFormedWord_of_decode {w : Word} {i : Instr} (h : decode w = some i) : wellFormedWord w = true := by
  obtain ⟨m, hm⟩ := row_selects_of_decode h
  exact List.any_eq_true.2 ⟨m.row, (mem_commandRows_iff _).2 ⟨m, rfl⟩, hm⟩

end Sys2Proof
end

section
/-! PROOFS. The lines the assembler accepts (30_encoding.md R66). -/

namespace Sys2Proof.Machine

open Sys2Proof.Claims

theorem byteLiteral_eq_some_iff (n : Nat) (b : Byte) : byteLiteral n = some b ↔ n = b.toNat := by
  unfold byteLiteral
  constructor
  · intro h
    split at h <;> cases h
    rw [BitVec.toNat_ofNat, Nat.mod_eq_of_lt (by omega)]
  · rintro rfl
    rw [if_pos (by omega), BitVec.ofNat_toNat, BitVec.setWidth_eq]

theorem slotName_eq_some_iff (n : Nat) (k : Slot) : slotName n = some k ↔ n = (slotIndex k).val := by
  constructor
  · intro h
    unfold slotName at h
    split at h <;> cases h <;> rfl
  · rintro rfl
    cases k <;> rfl

/-- The operands on a mnemonic's line, in the assembler's order: the slot, then a, then b, each where the command uses it. -/
def operandsOf (m : Mnemonic) (a b : Byte) (k : Slot) : List AsmArg :=
  (if m.uses.sl then [slotArg k] else []) ++ (if m.uses.fa then [byteArg a] else []) ++ (if m.uses.fb then [byteArg b] else [])

/-- An accepted line is a mnemonic with the operands it uses, and its command has 0 in every field it does not use. -/
theorem assembleCommand_eq_some {m : Mnemonic} {args : List AsmArg} {i : Instr} (h : assembleCommand m args = some i) :
    ∃ a b k, args = operandsOf m a b k ∧ i = instrOf m a b k ∧ i.fields = encFields m a b k := by
  -- The accepting arms, by the operands they read: none; a and b; a; slot; slot and a; slot, a and b.
  unfold assembleCommand at h
  split at h
  case h_1 | h_2 | h_3 | h_4 | h_5 | h_6 => cases h; exact ⟨0, 0, .s0, rfl, rfl, rfl⟩
  case h_21 => cases h
  all_goals
    simp only [Option.bind_eq_some_iff, Option.map_eq_some_iff, byteLiteral_eq_some_iff, slotName_eq_some_iff] at h
  case h_7 | h_8 => obtain ⟨a, rfl, b, rfl, rfl⟩ := h; exact ⟨a, b, .s0, rfl, rfl, rfl⟩
  case h_9 | h_10 => obtain ⟨a, rfl, rfl⟩ := h; exact ⟨a, 0, .s0, rfl, rfl, rfl⟩
  case h_11 | h_12 | h_13 | h_14 | h_15 | h_16 => obtain ⟨k, rfl, rfl⟩ := h; exact ⟨0, 0, k, rfl, rfl, rfl⟩
  case h_17 | h_18 => obtain ⟨k, rfl, a, rfl, rfl⟩ := h; exact ⟨a, 0, k, rfl, rfl, rfl⟩
  case h_19 | h_20 => obtain ⟨k, rfl, a, rfl, b, rfl, rfl⟩ := h; exact ⟨a, b, k, rfl, rfl, rfl⟩

theorem mem_operandsOf {m : Mnemonic} {a b : Byte} {k : Slot} {x : AsmArg} (h : x ∈ operandsOf m a b k) :
    x = slotArg k ∨ x = byteArg a ∨ x = byteArg b := by
  simp only [operandsOf, List.mem_append, List.mem_ite_nil_right, List.mem_singleton] at h
  tauto

theorem le_of_byte_mem_operandsOf {m : Mnemonic} {a b : Byte} {k : Slot} {n : Nat} (h : .byte n ∈ operandsOf m a b k) :
    n ≤ 255 := by
  rcases mem_operandsOf h with e | e | e <;> cases e <;> omega

theorem le_of_slot_mem_operandsOf {m : Mnemonic} {a b : Byte} {k : Slot} {n : Nat} (h : .slot n ∈ operandsOf m a b k) :
    n ≤ 2 := by
  rcases mem_operandsOf h with e | e | e <;> cases e
  omega

end Sys2Proof.Machine
end

section
/-! PROOFS. The statements of 30_encoding.md: the encoder, the decoder, the rows of R63 and the assembler. -/

namespace Sys2Proof.Machine

open Sys2Proof.Claims

/-- Settles O1: the fields of every command pass the decoder's checks (`fieldsLegal`). -/
theorem decodeOfEncodeGivesTheCommand : Obligations.DecodeOfEncodeGivesTheCommand :=
  decode_encode

/-- Settles O2: the checks of R64 leave no field of a legal word that the encoder does not write again. -/
theorem legalWordIsTheWordOfItsCommand : Obligations.LegalWordIsTheWordOfItsCommand :=
  fun _ _ => encode_of_decode

/-- Settles O3: the rows are `Mnemonic.row`, and a row selects the words that decode to its command. -/
theorem decodeFollowsTheRowTable : Obligations.DecodeFollowsTheRowTable := by
  intro w
  by_cases hrow : ∃ m : Mnemonic, m.row.selects w = true
  · obtain ⟨m, hm⟩ := hrow
    obtain ⟨k, hk, hdecode⟩ := decode_of_row_selects hm
    refine .inl ⟨m.row, k, (mem_commandRows_iff _).2 ⟨m, rfl⟩, hm, fun r hr hselects => ?_, hk, hdecode⟩
    obtain ⟨m', rfl⟩ := (mem_commandRows_iff r).1 hr
    rw [mnemonic_eq_of_row_selects hm hselects]
  · have hillegal : decode w = none := Option.eq_none_iff_forall_ne_some.2 fun _ h => hrow (row_selects_of_decode h)
    refine .inr ⟨fun r hr => ?_, hillegal, issueCommand_of_illegal hillegal⟩
    obtain ⟨m, rfl⟩ := (mem_commandRows_iff r).1 hr
    exact Bool.eq_false_iff.2 fun h => hrow ⟨m, h⟩

/-- Settles O5: an accepted line names the operands its command uses, so its word is the command's own word. -/
theorem assemblerEncodesLegalWords : Obligations.AssemblerEncodesLegalWords := by
  refine ⟨fun m args e h => ?_, by decide, by decide, by decide, by decide⟩
  obtain ⟨i, hi, rfl⟩ := Option.map_eq_some_iff.1 h
  obtain ⟨a, b, k, rfl, hinstr, hfields⟩ := assembleCommand_eq_some hi
  have hword : encode i = 0#6 ++ slotField k ++ b ++ a ++ m.opc := by
    rw [encode, hfields]
    rfl
  refine ⟨⟨a, b, k, ?_⟩, fun _ => le_of_byte_mem_operandsOf, fun _ => le_of_slot_mem_operandsOf⟩
  rw [← hword, ← hinstr]
  exact ⟨rfl, decode_encode i, wellFormedWord_of_decode (decode_encode i)⟩

/-- Settles O4: closed words, run through the decoder. -/
theorem sampleWordsDecode : Obligations.SampleWordsDecode := by
  unfold Obligations.SampleWordsDecode
  decide

end Sys2Proof.Machine
end

section
/-! PROOFS. Bytes as residues of polynomials modulo the Rijndael polynomial (40_field.md R80): the field operations of the model are
the operations of the quotient ring, so the ring's laws are theirs. -/

namespace Sys2Proof.Machine

open Sys2Proof.Claims Polynomial

/-! ### A byte's polynomial -/

theorem bytePoly_coeff (b : Byte) (n : ℕ) : (bytePoly b).coeff n = if b.getLsbD n then 1 else 0 := by
  simp only [bytePoly, finsetSum_coeff, apply_ite (coeff · n), coeff_X_pow, coeff_zero]
  by_cases hn : n < 8
  · rw [Finset.sum_eq_single (⟨n, hn⟩ : Fin 8)]
    · simp
    · intro i _ hi
      have : n ≠ i.val := fun e => hi (Fin.ext e.symm)
      simp [this]
    · simp
  · rw [BitVec.getLsbD_of_ge b n (by omega)]
    refine Finset.sum_eq_zero fun i _ => ?_
    have : n ≠ i.val := by omega
    simp [this]

theorem bytePoly_injective : Function.Injective bytePoly := by
  intro a b h
  refine BitVec.eq_of_getLsbD_eq fun i _ => ?_
  have hi := congrArg (coeff · i) h
  simp only [bytePoly_coeff] at hi
  cases ha : a.getLsbD i <;> cases hb : b.getLsbD i <;> simp_all

theorem bytePoly_zero : bytePoly 0#8 = 0 := by
  ext n
  simp [bytePoly_coeff]

theorem bytePoly_xor (a b : Byte) : bytePoly (a ^^^ b) = bytePoly a + bytePoly b := by
  ext n
  simp only [coeff_add, bytePoly_coeff, BitVec.getLsbD_xor]
  cases a.getLsbD n <;> cases b.getLsbD n <;> decide

theorem bytePoly_shiftLeft_one (a : Byte) : X * bytePoly a = bytePoly (a <<< 1) + if a.msb then X ^ 8 else 0 := by
  ext n
  rw [coeff_add, bytePoly_coeff, apply_ite (coeff · n), coeff_X_pow, coeff_zero, BitVec.msb_eq_getLsbD_last]
  rcases n with _ | n
  · simp
  · rw [coeff_X_mul, bytePoly_coeff, BitVec.getLsbD_shiftLeft]
    rcases lt_trichotomy n 7 with h | rfl | h
    · simp [show n + 1 < 8 by omega, show n ≠ 7 by omega]
    · simp
    · simp [BitVec.getLsbD_of_ge a n (by omega), show ¬ n + 1 < 8 by omega, show n ≠ 7 by omega]

theorem degree_bytePoly_lt (b : Byte) : (bytePoly b).degree < 8 := by
  refine (degree_lt_iff_coeff_zero _ 8).2 fun n hn => ?_
  simp [bytePoly_coeff, BitVec.getLsbD_of_ge b n hn]

/-! ### The Rijndael polynomial -/

theorem rijndael_eq : rijndael = X ^ 8 + bytePoly 0x1B := by
  simp [rijndael, bytePoly, Fin.sum_univ_succ, add_assoc, add_comm, add_left_comm]

theorem degree_rijndael : rijndael.degree = 8 := by
  rw [rijndael_eq, degree_add_eq_left_of_degree_lt] <;> rw [degree_X_pow]
  · rfl
  · exact degree_bytePoly_lt _

theorem natDegree_rijndael : rijndael.natDegree = 8 :=
  natDegree_eq_of_degree_eq_some degree_rijndael

theorem monic_rijndael : rijndael.Monic := by
  rw [rijndael_eq]
  exact monic_X_pow_add (degree_bytePoly_lt _)

theorem bytePoly_modByMonic_rijndael (b : Byte) : bytePoly b %ₘ rijndael = bytePoly b :=
  (modByMonic_eq_self_iff monic_rijndael).2 (degree_rijndael ▸ degree_bytePoly_lt b)

/-! ### A byte's residue -/

/-- The residue of a byte's polynomial modulo the Rijndael polynomial. -/
noncomputable def residue (b : Byte) : AdjoinRoot rijndael :=
  AdjoinRoot.mk rijndael (bytePoly b)

theorem residue_injective : Function.Injective residue := by
  intro a b h
  have hmod := congrArg (AdjoinRoot.modByMonicHom monic_rijndael) h
  simp only [residue, AdjoinRoot.modByMonicHom_mk, bytePoly_modByMonic_rijndael] at hmod
  exact bytePoly_injective hmod

@[simp] theorem residue_zero : residue 0#8 = 0 := by
  rw [residue, bytePoly_zero, map_zero]

@[simp] theorem residue_one : residue 1#8 = 1 := by
  simp [residue, bytePoly]

@[simp] theorem residue_xor (a b : Byte) : residue (a ^^^ b) = residue a + residue b := by
  simp only [residue, bytePoly_xor, map_add]

/-- Reduction: `x^8` and 0x1B are one residue, since their sum is the modulus. -/
theorem root_pow_eight : AdjoinRoot.root rijndael ^ 8 = residue 0x1B := by
  rw [← AdjoinRoot.mk_X, ← map_pow, residue, AdjoinRoot.mk_eq_mk, CharTwo.sub_eq_add, ← rijndael_eq]

@[simp] theorem residue_dbl (a : Byte) : residue (dbl a) = AdjoinRoot.root rijndael * residue a := by
  have hshift : AdjoinRoot.root rijndael * residue a =
      residue (a <<< 1) + if a.msb then AdjoinRoot.root rijndael ^ 8 else 0 := by
    rw [residue, ← AdjoinRoot.mk_X, ← map_mul, bytePoly_shiftLeft_one, map_add, apply_ite (AdjoinRoot.mk rijndael), map_pow,
      map_zero, residue]
  rw [hshift, root_pow_eight, dbl]
  split <;> simp

theorem residue_two : residue 2#8 = AdjoinRoot.root rijndael := by
  calc residue 2#8 = residue (dbl 1#8) := rfl
    _ = AdjoinRoot.root rijndael := by rw [residue_dbl, residue_one, mul_one]

/-- The loop of gf_mul adds to `p` the multiples `x^j a` for the bits `j` of `b` it has left (40_field.md R80). -/
theorem residue_gfMulLoop (b : Byte) (n i : ℕ) (a p : Byte) :
    residue (gfMulLoop b n i a p) =
      residue p + residue a * ∑ j ∈ Finset.range n, if b.getLsbD (i + j) then AdjoinRoot.root rijndael ^ j else 0 := by
  induction n generalizing i a p with
  | zero => simp [gfMulLoop]
  | succ n ih =>
    have hp : residue (if b.getLsbD i then p ^^^ a else p) = residue p + if b.getLsbD i then residue a else 0 := by
      split <;> simp
    have hrest : (∑ j ∈ Finset.range n, if b.getLsbD (i + (j + 1)) then AdjoinRoot.root rijndael ^ (j + 1) else 0) =
        AdjoinRoot.root rijndael *
          ∑ j ∈ Finset.range n, if b.getLsbD (i + 1 + j) then AdjoinRoot.root rijndael ^ j else 0 := by
      simp only [Finset.mul_sum, mul_ite, mul_zero, pow_succ', add_assoc, add_comm 1]
    rw [gfMulLoop, ih, hp, residue_dbl, Finset.sum_range_succ', hrest]
    simp only [add_zero, pow_zero]
    split <;> ring

/-- gf_mul is the multiplication of the quotient ring (40_field.md R80). -/
@[simp] theorem residue_gfMul (a b : Byte) : residue (gfMul a b) = residue a * residue b := by
  have hb : residue b = ∑ j ∈ Finset.range 8, if b.getLsbD (0 + j) then AdjoinRoot.root rijndael ^ j else 0 := by
    simp [residue, bytePoly, Finset.sum_range, apply_ite (AdjoinRoot.mk rijndael)]
  rw [gfMul, residue_gfMulLoop, ← hb]
  simp

/-! ### The laws of 40_field.md R83 -/

theorem gfMul_xor (a b c : Byte) : gfMul a (b ^^^ c) = gfMul a b ^^^ gfMul a c :=
  residue_injective (by simp [mul_add])

theorem gfMul_comm (a b : Byte) : gfMul a b = gfMul b a :=
  residue_injective (by simp [mul_comm])

theorem gfMul_assoc (a b c : Byte) : gfMul (gfMul a b) c = gfMul a (gfMul b c) :=
  residue_injective (by simp [mul_assoc])

@[simp] theorem gfMul_one (a : Byte) : gfMul a 1#8 = a :=
  residue_injective (by simp)

@[simp] theorem one_gfMul (a : Byte) : gfMul 1#8 a = a :=
  residue_injective (by simp)

@[simp] theorem gfMul_zero (a : Byte) : gfMul a 0#8 = 0#8 :=
  residue_injective (by simp)

@[simp] theorem zero_gfMul (a : Byte) : gfMul 0#8 a = 0#8 :=
  residue_injective (by simp)

theorem dbl_eq_gfMul_two (a : Byte) : dbl a = gfMul a 2 :=
  residue_injective (by simp [residue_two, mul_comm])

/-! ### Powers -/

theorem residue_iterate_gfMul (a b : Byte) (n : ℕ) : residue ((gfMul a)^[n] b) = residue a ^ n * residue b := by
  induction n with
  | zero => simp
  | succ n ih => rw [Function.iterate_succ_apply', residue_gfMul, ih, pow_succ', mul_assoc]

theorem residue_gfSquares (n : ℕ) (a acc : Byte) :
    residue (gfSquares n a acc) = residue acc * residue a ^ (2 ^ (n + 1) - 2) := by
  induction n generalizing a acc with
  | zero => simp [gfSquares]
  | succ n ih =>
    have hexp : 2 ^ (n + 1 + 1) - 2 = 2 + 2 * (2 ^ (n + 1) - 2) := by
      have := Nat.one_le_two_pow (n := n)
      omega
    rw [gfSquares, ih, residue_gfMul, residue_gfMul, hexp, pow_add _ 2, pow_mul _ 2, sq, mul_assoc]

/-- The squares that the inverse multiplies have the exponents 2, 4, ..., 128, whose sum is 254. -/
theorem residue_gfSquares_seven (a : Byte) : residue (gfSquares 7 a 1) = residue a ^ 254 := by
  have hexp : 2 ^ (7 + 1) - 2 = 254 := by decide
  rw [residue_gfSquares, hexp]
  simp

theorem gfSquares_seven_eq_iterate (a : Byte) : gfSquares 7 a 1 = (gfMul a)^[254] 1 := by
  refine residue_injective ?_
  rw [residue_gfSquares_seven, residue_iterate_gfMul]
  simp

/-- The square of a byte in the field. -/
def gfSquare (a : Byte) : Byte := gfMul a a

theorem residue_iterate_gfSquare (a : Byte) (n : ℕ) : residue (gfSquare^[n] a) = residue a ^ 2 ^ n := by
  induction n with
  | zero => simp
  | succ n ih => rw [Function.iterate_succ_apply', gfSquare, residue_gfMul, ih, pow_succ 2, pow_mul, sq]

/-! ### The Rijndael polynomial is irreducible -/

/-- The residues modulo an irreducible polynomial of degree `d` are a field of `2^d` elements. -/
theorem adjoinRoot_pow_card {f : (ZMod 2)[X]} (hf : Irreducible f) (n : ℕ) (z : AdjoinRoot f) :
    z ^ (2 ^ f.natDegree) ^ n = z := by
  have := Fact.mk hf
  have := (AdjoinRoot.powerBasis hf.ne_zero).finite
  have := Module.finite_of_finite (ZMod 2) (M := AdjoinRoot f)
  have := Fintype.ofFinite (AdjoinRoot f)
  have hcard : Fintype.card (AdjoinRoot f) = 2 ^ f.natDegree := by
    rw [← Nat.card_eq_fintype_card, Module.natCard_eq_pow_finrank (K := ZMod 2), Nat.card_zmod,
      (AdjoinRoot.powerBasis hf.ne_zero).finrank, AdjoinRoot.powerBasis_dim]
  rw [← hcard]
  exact FiniteField.pow_card_pow n z

/-- `x^(2^12) - x` has an inverse modulo the Rijndael polynomial: 0x51, as the model computes. -/
theorem root_pow_sub_root_mul :
    (AdjoinRoot.root rijndael ^ 2 ^ 12 - AdjoinRoot.root rijndael) * residue 0x51#8 = 1 := by
  have hbyte : gfMul (gfSquare^[12] 2#8 ^^^ 2#8) 0x51#8 = 1#8 := by decide +kernel
  have hdiff : AdjoinRoot.root rijndael ^ 2 ^ 12 - AdjoinRoot.root rijndael = residue (gfSquare^[12] 2#8 ^^^ 2#8) := by
    rw [residue_xor, residue_iterate_gfSquare, residue_two, ← AdjoinRoot.mk_X, ← map_pow, ← map_sub, ← map_add,
      CharTwo.sub_eq_add]
  rw [hdiff, ← residue_gfMul, hbyte, residue_one]

/-- An irreducible factor of degree 1, 2, 3 or 4 gives a field where `x^(2^12) = x`, since its degree divides 12; but
`x^(2^12) - x` has an inverse. -/
theorem irreducible_rijndael : Irreducible rijndael := by
  have hone : rijndael ≠ 1 := fun h => by simpa [h] using natDegree_rijndael
  rw [monic_rijndael.irreducible_iff_lt_natDegree_lt hone, natDegree_rijndael]
  intro q _ hq hdvd
  obtain ⟨hpos, hle⟩ := Finset.mem_Ioc.1 hq
  obtain ⟨f, hf, hfq⟩ := exists_irreducible_of_natDegree_ne_zero hpos.ne'
  have := Fact.mk hf
  have hfpos : 0 < f.natDegree := hf.natDegree_pos
  have hfle : f.natDegree ≤ 4 := (natDegree_le_of_dvd hfq (ne_zero_of_natDegree_gt hpos)).trans hle
  have htwelve : AdjoinRoot.root f ^ 2 ^ 12 = AdjoinRoot.root f := by
    have hdiv : f.natDegree * (12 / f.natDegree) = 12 := by interval_cases f.natDegree <;> rfl
    rw [← hdiv, pow_mul 2, adjoinRoot_pow_card hf]
  have h := congrArg (AdjoinRoot.algHomOfDvd (ZMod 2) rijndael f (hfq.trans hdvd)) root_pow_sub_root_mul
  rw [map_mul, map_sub, map_pow, AdjoinRoot.algHomOfDvd_root, htwelve, sub_self, zero_mul, map_one] at h
  exact zero_ne_one h

/-! ### Inverses (40_field.md R82) -/

/-- `a^254` is an inverse of a nonzero `a`, because the 256 residues are a field, in which `a^256 = a`. -/
theorem gfMul_gfSquares_seven {a : Byte} (ha : a ≠ 0) : gfMul a (gfSquares 7 a 1) = 1 := by
  have := Fact.mk irreducible_rijndael
  have hz : residue a ≠ 0 := fun h => ha (residue_injective (h.trans residue_zero.symm))
  have hpow : residue a ^ 256 = residue a := by
    simpa [natDegree_rijndael] using adjoinRoot_pow_card irreducible_rijndael 1 (residue a)
  refine residue_injective (mul_left_cancel₀ hz ?_)
  calc residue a * residue (gfMul a (gfSquares 7 a 1)) = residue a ^ 256 := by
        rw [residue_gfMul, residue_gfSquares_seven, ← pow_succ', ← pow_succ']
    _ = residue a * residue 1 := by simp [hpow]

theorem gfMul_eq_one_unique {a b c : Byte} (hb : gfMul a b = 1) (hc : gfMul a c = 1) : c = b := by
  calc c = gfMul (gfMul a b) c := by simp [hb]
    _ = gfMul (gfMul a c) b := by rw [gfMul_assoc, gfMul_comm b, ← gfMul_assoc]
    _ = b := by simp [hc]

theorem gfInv_eq_some_iff (a b : Byte) : gfInv a = some b ↔ gfMul a b = 1 := by
  by_cases ha : a = 0
  · subst ha
    simp [gfInv]
  · rw [gfInv, if_neg ha, Option.some_inj]
    exact ⟨fun h => h ▸ gfMul_gfSquares_seven ha, fun h => gfMul_eq_one_unique h (gfMul_gfSquares_seven ha)⟩

end Sys2Proof.Machine
end

section
/-! PROOFS. The encoding lines of a command's rule, for every command at once (30_encoding.md R63, R64, R66). -/

namespace Sys2Proof.Machine

open Sys2Proof.Claims

theorem packFields_of_unused_slot (opc fa fb : Byte) :
    packFields { opc, fa, fb, sl := 0, rsv := 0 } = 0#8 ++ fb ++ fa ++ opc := by
  rw [show 0#8 = 0#6 ++ 0#2 from rfl]
  rfl

theorem packFields_of_unused_slot_fb (opc fa : Byte) :
    packFields { opc, fa, fb := 0, sl := 0, rsv := 0 } = 0#16 ++ fa ++ opc := by
  rw [show 0#16 = 0#6 ++ 0#2 ++ 0#8 from rfl]
  rfl

/-- The word of a command is selected by the row of its mnemonic. -/
theorem row_selects_encode_instrOf (m : Mnemonic) (a b : Byte) (k : Slot) : m.row.selects (encode (instrOf m a b k)) = true := by
  rw [row_selects_iff, encode, fieldsOf_packFields, fields_instrOf, unusedFieldSet_eq_false_iff]
  refine ⟨mnemonicOfOpc_opc m, rfl, by simp +contextual, if m.uses.sl then k else .s0, ?_⟩
  cases m.uses.sl <;> simp
  rfl

/-- The assembler accepts a mnemonic with the operands it uses. -/
theorem assembleCommand_operandsOf (m : Mnemonic) (a b : Byte) (k : Slot) :
    assembleCommand m (operandsOf m a b k) = some (instrOf m a b k) := by
  have hbyte (x : Byte) : byteLiteral x.toNat = some x := (byteLiteral_eq_some_iff _ x).2 rfl
  have hslot : slotName (slotIndex k).val = some k := (slotName_eq_some_iff _ k).2 rfl
  cases m <;> simp [operandsOf, Mnemonic.uses, byteArg, slotArg, assembleCommand, hbyte, hslot] <;> rfl

/-- A word that has a row's OPC decodes only if that row selects it. -/
theorem decode_eq_none_of_not_row_selects {m : Mnemonic} {v : Word} (hopc : v.extractLsb' 0 8 = m.opc)
    (h : m.row.selects v = false) : decode v = none := by
  refine Option.eq_none_iff_forall_ne_some.2 fun i hi => ?_
  obtain ⟨m', hm'⟩ := row_selects_of_decode hi
  have hopc' : mnemonicOfOpc (v.extractLsb' 0 8) = some m' := ((row_selects_iff m' v).1 hm').1
  rw [hopc, mnemonicOfOpc_opc, Option.some_inj] at hopc'
  rw [hopc', hm'] at h
  cases h

/-- The encoding lines of every command's rule: its word is the encoder's, its row the mnemonic's, and its line the mnemonic with the
operands it uses. -/
theorem encodingCard (m : Mnemonic) (a b : Byte) (k : Slot) {w : Word} (hw : encode (instrOf m a b k) = w) :
    EncodingCard (instrOf m a b k) w m.row (.command m (operandsOf m a b k)) := by
  subst hw
  refine ⟨fun v => ⟨fun h => (encode_of_decode h).symm, fun h => h ▸ decode_encode _⟩, (mem_commandRows_iff _).2 ⟨m, rfl⟩,
    row_selects_encode_instrOf m a b k, ?_, fun v s hopc h => ?_⟩
  · rw [assembleLine, assembleCommand_operandsOf, Option.map_some]
  · exact issueCommand_of_illegal (decode_eq_none_of_not_row_selects hopc h) s

end Sys2Proof.Machine
end

section
/-! PROOFS. What each field command does (40_field.md R84 to R87). -/

namespace Sys2Proof.Machine

open Sys2Proof.Claims

/-! ### Doubling, by the top bit (40_field.md R81) -/

theorem dbl_of_lt {a : Byte} (h : a.toNat < 0x80) : dbl a = a <<< 1 :=
  if_neg (by simpa [BitVec.msb_eq_decide] using h)

theorem dbl_of_ge {a : Byte} (h : 0x80 ≤ a.toNat) : dbl a = (a <<< 1) ^^^ 0x1B#8 :=
  if_pos (by simpa [BitVec.msb_eq_decide] using h)

theorem extractLsb'_append_zero (a : Byte) : (a.extractLsb' 0 7 ++ 0#1 : Byte) = a <<< 1 :=
  (BitVec.shiftLeft_eq_concat_of_lt (x := a) (n := 1) (by decide)).symm

/-! ### The commands -/

theorem exec_gadd (a b : Byte) (s : State) : exec (.gadd a b) s = .next { s with res := a ^^^ b } := rfl

theorem exec_gmul (a b : Byte) (s : State) : exec (.gmul a b) s = .next { s with res := gfMul a b } := rfl

theorem exec_gdbl (a : Byte) (s : State) : exec (.gdbl a) s = .next { s with res := dbl a } := rfl

theorem exec_ginv_of_gfMul_eq_one {a b : Byte} (h : gfMul a b = 1) (s : State) :
    exec (.ginv a) s = .next { s with res := b } := by
  simp only [exec, execGinv, (gfInv_eq_some_iff a b).2 h]
  rfl

theorem exec_ginv_zero (s : State) : exec (.ginv 0) s = .next (reported 2 (encode (.ginv 0)) s) :=
  exec_of_error (c := .invZero) rfl

end Sys2Proof.Machine
end

section
/-! PROOFS. The statements of 40_field.md. -/

namespace Sys2Proof.Machine

open Sys2Proof.Claims

/-- Settles O8: both sides are reduced, and they have one residue (`residue_gfMul`). -/
theorem gfMulIsThePolynomialProduct : Obligations.GfMulIsThePolynomialProduct := by
  refine ⟨bytePoly_injective, fun a b => ?_⟩
  have hmod := congrArg (AdjoinRoot.modByMonicHom monic_rijndael) (residue_gfMul a b)
  simpa only [residue, ← map_mul, AdjoinRoot.modByMonicHom_mk, bytePoly_modByMonic_rijndael] using hmod

/-- Settles O9: the laws of the quotient ring, carried over by `residue_injective`, and the inverse of `gfInv_eq_some_iff`. -/
theorem fieldLawsHold : Obligations.FieldLawsHold := by
  refine ⟨fun a ha => ?_, gfMul_xor, fun a => BitVec.xor_self, gfMul_comm, gfMul_assoc,
    fun a => ⟨gfMul_one a, one_gfMul a, gfMul_zero a⟩,
    fun a b c => ⟨BitVec.xor_comm a b, BitVec.xor_assoc a b c, BitVec.xor_zero⟩, dbl_eq_gfMul_two⟩
  exact ⟨gfSquares 7 a 1, if_neg ha, gfMul_gfSquares_seven ha⟩

/-- Settles O10: the word and line of GADD are those of every command (`encodingCard`). -/
theorem gaddAddsInTheField : Obligations.GaddAddsInTheField := by
  intro a b s
  refine ⟨encodingCard .gadd a b .s0 (packFields_of_unused_slot ..), exec_gadd a b s, ?_, ?_, by decide, rfl⟩ <;>
    simp [exec_gadd]

/-- Settles O11: the corner cases are the laws of the product. -/
theorem gmulMultipliesInTheField : Obligations.GmulMultipliesInTheField := by
  intro a b s
  refine ⟨encodingCard .gmul a b .s0 (packFields_of_unused_slot ..), exec_gmul a b s, ?_, ?_, ?_, rfl, rfl, by decide, rfl⟩ <;>
    simp [exec_gmul]

/-- Settles O12: GINV answers the one `b` with `a b = 1` (`gfInv_eq_some_iff`), which is `a^254`; 0 has none. -/
theorem ginvInvertsInTheField : Obligations.GinvInvertsInTheField := by
  refine fun a s => ⟨encodingCard .ginv a 0 .s0 (packFields_of_unused_slot_fb ..), ?_, fun ha => ?_,
    exec_ginv_of_gfMul_eq_one (by decide) s, exec_ginv_of_gfMul_eq_one (by decide) s,
    exec_ginv_of_gfMul_eq_one (by decide) s, by decide, exec_ginv_of_gfMul_eq_one (by decide) s, by decide +kernel⟩
  · rintro rfl
    exact ⟨rfl, by simp, exec_ginv_zero s, raiseError_res .invZero _ s⟩
  · have hb := gfMul_gfSquares_seven ha
    exact ⟨gfSquares 7 a 1, hb, fun c hc => gfMul_eq_one_unique hb hc, (gfSquares_seven_eq_iterate a).symm,
      exec_ginv_of_gfMul_eq_one hb s, exec_ginv_of_gfMul_eq_one (gfMul_comm _ a ▸ hb) s⟩

/-- Settles O13: the top bit of `a` is what the two ranges of R87 tell apart. -/
theorem gdblDoublesInTheField : Obligations.GdblDoublesInTheField := by
  refine fun a s => ⟨encodingCard .gdbl a 0 .s0 (packFields_of_unused_slot_fb ..), exec_gdbl a s,
    dbl_eq_gfMul_two a, ?_, dbl_of_lt, dbl_of_ge, rfl, rfl, rfl, rfl, by decide, rfl⟩
  rw [extractLsb'_append_zero, dbl, BitVec.msb_eq_getLsbD_last]

/-- Settles O14: each of the four commands writes a byte of its operands alone, and GINV of 0 writes none. -/
theorem fieldCommandsTouchOnlyRes : Obligations.FieldCommandsTouchOnlyRes := by
  intro i hi
  cases i <;> cases hi
  case gadd a b => exact .inl ⟨a ^^^ b, exec_gadd a b⟩
  case gmul a b => exact .inl ⟨gfMul a b, exec_gmul a b⟩
  case gdbl a => exact .inl ⟨dbl a, exec_gdbl a⟩
  case ginv a =>
    by_cases ha : a = 0
    · subst ha
      exact .inr ⟨rfl, exec_ginv_zero⟩
    · exact .inl ⟨gfSquares 7 a 1, exec_ginv_of_gfMul_eq_one (gfMul_gfSquares_seven ha)⟩

end Sys2Proof.Machine
end

section
/-! PROOFS. Tables as maps on the bytes (41_tables.md R95, R97, R99): when one is a bijection, what a swap does to it, and which table
undoes it. -/

namespace Sys2Proof.Machine

/-! ### Bijections -/

theorem isBijection_iff_bijective (t : ByteTable) : IsBijection t ↔ Function.Bijective (lookup t) :=
  (Function.bijective_iff_existsUnique (lookup t)).symm

theorem isBijection_iff_injective (t : ByteTable) : IsBijection t ↔ Function.Injective (lookup t) :=
  (isBijection_iff_bijective t).trans Finite.injective_iff_bijective.symm

theorem isBijection_iff_surjective (t : ByteTable) : IsBijection t ↔ Function.Surjective (lookup t) :=
  (isBijection_iff_injective t).trans Finite.injective_iff_surjective

/-- Two entries hold one value (41_tables.md R97). -/
theorem not_isBijection_iff_exists_eq (t : ByteTable) :
    ¬ IsBijection t ↔ ∃ x y : Byte, x ≠ y ∧ lookup t x = lookup t y := by
  rw [isBijection_iff_injective, Function.not_injective_iff]
  simp only [and_comm]

/-- Some value is missing (41_tables.md R97). -/
theorem not_isBijection_iff_exists_missing (t : ByteTable) : ¬ IsBijection t ↔ ∃ v : Byte, ∀ x : Byte, lookup t x ≠ v := by
  simp only [isBijection_iff_surjective, Function.Surjective, not_forall, not_exists]

/-! ### Swaps -/

theorem lookup_swapEntries_eq_comp_swap (t : ByteTable) (i j : Byte) :
    lookup (swapEntries t i j) = lookup t ∘ Equiv.swap i j := by
  funext x
  rw [lookup_swapEntries, Function.comp_apply, Equiv.swap_apply_def]
  by_cases hi : x = i
  · subst hi
    rw [if_pos rfl, if_pos rfl]
    exact ite_eq_right_iff.2 fun h => by rw [h]
  · rw [if_neg hi, if_neg hi, apply_ite (lookup t)]

theorem swapEntries_self (t : ByteTable) (i : Byte) : swapEntries t i i = t :=
  table_ext fun x => by simp [lookup_swapEntries_eq_comp_swap]

theorem isBijection_swapEntries {t : ByteTable} (h : IsBijection t) (i j : Byte) : IsBijection (swapEntries t i j) := by
  rw [isBijection_iff_bijective, lookup_swapEntries_eq_comp_swap]
  exact ((isBijection_iff_bijective t).1 h).comp (Equiv.swap i j).bijective

/-! ### Inverse tables -/

/-- On the 256 bytes, a table that undoes a bijection is undone by it (41_tables.md R99). -/
theorem lookup_lookup_inverse {t u : ByteTable} (ht : IsBijection t) (hu : ∀ x : Byte, lookup u (lookup t x) = x) (y : Byte) :
    lookup t (lookup u y) = y :=
  Function.LeftInverse.rightInverse_of_surjective hu ((isBijection_iff_surjective t).1 ht) y

/-- Only one table undoes a bijection. -/
theorem inverse_unique {t u v : ByteTable} (ht : IsBijection t) (hu : ∀ x : Byte, lookup u (lookup t x) = x)
    (hv : ∀ x : Byte, lookup v (lookup t x) = x) : u = v :=
  table_ext fun y => by
    obtain ⟨x, rfl⟩ := (isBijection_iff_surjective t).1 ht y
    rw [hu, hv]

/-- The tables of a committed slot that keeps the promise of 10_state.md R30 undo each other (41_tables.md R99). -/
theorem tables_undo_of_coherent {c : SlotState} (hv : c.valid = true) (hc : c.Coherent) :
    (∀ x : Byte, lookup c.tinv (lookup c.t x) = x) ∧ ∀ y : Byte, lookup c.t (lookup c.tinv y) = y := by
  obtain ⟨hbij, hinv⟩ := hc hv
  exact ⟨hinv, lookup_lookup_inverse hbij hinv⟩

theorem slotState_ext {c d : SlotState} (ht : c.t = d.t) (htinv : c.tinv = d.tinv) (hv : c.valid = d.valid) : c = d := by
  cases c
  cases d
  simp_all only

/-- A bijection can be committed: T stays, and the slot keeps the promise of 10_state.md R30 (41_tables.md R97). -/
theorem commitSlot_of_isBijection {c : SlotState} (h : IsBijection c.t) :
    ∃ d, commitSlot c = some d ∧ d.t = c.t ∧ d.valid = true ∧ d.Coherent := by
  have hb := (bijective_iff c.t).2 h
  exact ⟨_, if_pos hb, rfl, rfl, commit_coherent hb⟩

end Sys2Proof.Machine
end

section
/-! PROOFS. What each table command does (41_tables.md R92 to R97), and what it looks at (R90). -/

namespace Sys2Proof.Machine

open Sys2Proof.Claims

/-! ### Writing a slot -/

/-- Writing a slot leaves every other slot and every other field (41_tables.md R90). -/
theorem setSlot_frame (k : Slot) (c : SlotState) (s : State) :
    (∀ j : Slot, j ≠ k → (s.setSlot k c).slot j = s.slot j) ∧ { s.setSlot k c with slots := s.slots } = s :=
  ⟨fun _ => slot_setSlot_other s c, rfl⟩

theorem setSlot_slot_self (k : Slot) (s : State) : s.setSlot k (s.slot k) = s := by
  simp [State.setSlot, State.slot]

/-- STATUS shows the VALID bit of the slot just written (10_state.md R24). -/
theorem statusWord_setSlot_valid (k : Slot) (c : SlotState) (s : State) :
    (statusWord (s.setSlot k c)).getLsbD (8 + (slotIndex k).val) = c.valid := by
  obtain ⟨_, _, hvalid, _⟩ := statusWord_fields (s.setSlot k c)
  rw [hvalid, slot_setSlot_same]

/-! ### The commands -/

theorem exec_twr (k : Slot) (a b : Byte) (s : State) :
    exec (.twr k a b) s = .next (s.setSlot k { s.slot k with t := writeEntry (s.slot k).t a b, valid := false }) := rfl

theorem exec_trd (k : Slot) (a : Byte) (s : State) : exec (.trd k a) s = .next (s.setRes (lookup (s.slot k).t a)) := rfl

theorem exec_tird_of_valid {k : Slot} {s : State} (h : (s.slot k).valid = true) (a : Byte) :
    exec (.tird k a) s = .next (s.setRes (lookup (s.slot k).tinv a)) :=
  congrArg Host.Outcome.next (withCommitted_of_valid _ _ h)

theorem exec_tswap (k : Slot) (i j : Byte) (s : State) :
    exec (.tswap k i j) s = .next (s.setSlot k { s.slot k with t := swapEntries (s.slot k).t i j, valid := false }) := rfl

theorem exec_tident (k : Slot) (s : State) : exec (.tident k) s = .next (s.setSlot k identitySlot) := rfl

theorem subLayer_identitySlot (b : Block) : subLayer identitySlot b = b := by
  ext i hi : 1
  simp [subLayer, substitute, identitySlot]

/-- SUB on an identity slot leaves the state (41_tables.md R96). -/
theorem exec_sub_of_identitySlot {k : Slot} {s : State} (h : s.slot k = identitySlot) : exec (.sub k) s = .next s := by
  rw [exec, execSub, withCommitted_of_valid _ _ (by rw [h, identitySlot]), h, subLayer_identitySlot]
  rfl

theorem exec_tcommit_of_commitSlot {k : Slot} {s : State} {d : SlotState} (h : commitSlot (s.slot k) = some d) :
    exec (.tcommit k) s = .next (s.setSlot k d) := by
  simp only [exec, execTcommit, h]

theorem exec_tcommit_of_isBijection {k : Slot} {s : State} (h : IsBijection (s.slot k).t) :
    ∃ d, exec (.tcommit k) s = .next (s.setSlot k d) ∧ d.t = (s.slot k).t ∧ d.valid = true ∧ d.Coherent := by
  obtain ⟨d, hd, ht, hv, hc⟩ := commitSlot_of_isBijection h
  exact ⟨d, exec_tcommit_of_commitSlot hd, ht, hv, hc⟩

theorem commandError_tcommit_eq_none_iff (k : Slot) (s : State) :
    commandError (.tcommit k) s = none ↔ IsBijection (s.slot k).t := by
  rw [IsBijection, ← bijective_iff]
  simp [commandError]

theorem exec_tcommit_of_not_isBijection {k : Slot} {s : State} (h : ¬ IsBijection (s.slot k).t) :
    exec (.tcommit k) s = .next (reported 4 (encode (.tcommit k)) s) :=
  exec_of_error (c := .notBijective) (if_neg (mt (bijective_iff _).1 h))

/-- TCOMMIT of a committed slot that keeps the promise of 10_state.md R30 writes the inverse that is there already (41_tables.md R97). -/
theorem exec_tcommit_of_coherent {k : Slot} {s : State} (hv : (s.slot k).valid = true) (hc : (s.slot k).Coherent) :
    exec (.tcommit k) s = .next s := by
  obtain ⟨hbij, hinv⟩ := hc hv
  obtain ⟨d, hexec, ht, hdv, hdc⟩ := exec_tcommit_of_isBijection hbij
  have hdinv := (hdc hdv).2
  rw [ht] at hdinv
  have hsame : d = s.slot k := slotState_ext ht (inverse_unique hbij hdinv hinv) (hdv.trans hv.symm)
  rw [hexec, hsame, setSlot_slot_self]

/-! ### Commands in a row -/

theorem runCommands_cons_of_next {i : Instr} {s t : State} (h : exec i s = .next t) (is : List Instr) :
    runCommands (i :: is) s = runCommands is t := by
  simp only [runCommands, h]

/-- Committing the identity with two entries exchanged gives the exchange of their indices as the inverse (41_tables.md R97). -/
theorem runCommands_swap_of_identity (k : Slot) (i j : Byte) (s : State) :
    ∃ t, runCommands [.tident k, .tswap k i j, .tcommit k] s = .next t ∧ (t.slot k).valid = true ∧
      ∀ x : Byte, lookup (t.slot k).tinv x = Equiv.swap i j x := by
  obtain ⟨t, ht, htable⟩ : ∃ t, exec (.tswap k i j) (s.setSlot k identitySlot) = .next t ∧
      (t.slot k).t = swapEntries identityTable i j := ⟨_, exec_tswap .., by simp [identitySlot]⟩
  have hbij : IsBijection (t.slot k).t := htable ▸ isBijection_swapEntries isBijection_identityTable i j
  obtain ⟨d, hd, hdt, hv, hc⟩ := exec_tcommit_of_isBijection hbij
  refine ⟨_, (runCommands_cons_of_next (exec_tident k s) _).trans ((runCommands_cons_of_next ht _).trans
    (runCommands_cons_of_next hd _)), ?_, fun x => ?_⟩ <;> rw [slot_setSlot_same]
  · exact hv
  · have hx : lookup d.t (Equiv.swap i j x) = x := by simp [hdt, htable, lookup_swapEntries_eq_comp_swap]
    calc lookup d.tinv x = lookup d.tinv (lookup d.t (Equiv.swap i j x)) := by rw [hx]
      _ = Equiv.swap i j x := (hc hv).2 _

/-! ### Uncommitted slots -/

/-- A command that needs a committed slot raises TABLE_INVALID on an uncommitted one (60_exceptions.md R160). -/
theorem exec_of_uncommitted {i : Instr} {k : Slot} {s : State} (hi : needsCommitted i = true) (hk : slotOperand i = some k)
    (hv : (s.slot k).valid = false) : exec i s = .next (reported 3 (encode i) s) := by
  have hcheck : commandError i s = tableCheck k s := by
    cases i <;> cases hi <;> cases hk <;> rfl
  exact exec_of_error (c := .tableInvalid) (by rw [hcheck, tableCheck, hv]; rfl)

/-- Only TIDENT and TCOMMIT commit a slot (10_state.md R30). -/
theorem exec_keeps_uncommitted {i : Instr} {k : Slot} {s t : State} (hi : i ≠ .tident k ∧ i ≠ .tcommit k)
    (h : exec i s = .next t) (hv : (s.slot k).valid = false) : (t.slot k).valid = false := by
  rcases exec_slot h k with hsame | ⟨_, _, ⟨_, hclear⟩ | ⟨htident | ⟨htcommit, _⟩, _⟩⟩
  · rw [hsame, hv]
  · exact hclear
  · exact absurd htident hi.1
  · exact absurd htcommit hi.2

theorem runCommands_keeps_uncommitted {is : List Instr} {k : Slot} {s t : State} (his : ∀ i ∈ is, i ≠ .tident k ∧ i ≠ .tcommit k)
    (h : runCommands is s = .next t) (hv : (s.slot k).valid = false) : (t.slot k).valid = false := by
  induction is generalizing s with
  | nil => cases h; exact hv
  | cons i is ih =>
    obtain ⟨hi, hrest⟩ := List.forall_mem_cons.1 his
    obtain ⟨u, hu⟩ := exec_total i s
    rw [runCommands_cons_of_next hu] at h
    exact ih hrest h (exec_keeps_uncommitted hi hu hv)

/-! ### What a table command looks at -/

/-- SL = 3 names no slot, so no word with it is a command (30_encoding.md R64). -/
theorem decode_eq_none_of_slotThree {w : Word} (h : w.extractLsb' 24 2 = 3#2) : decode w = none := by
  refine Option.eq_none_iff_forall_ne_some.2 fun i hi => ?_
  obtain ⟨_, k, _, _, _, hk, _⟩ := (decode_eq_some_iff w i).1 hi
  exact (exists_slotOfField_iff _).1 ⟨k, hk⟩ h

/-- Everything a table command can do, as a function of its own slot (41_tables.md R90): TIRD or TCOMMIT fails its check; TRD or TIRD writes
one byte to RES; any other writes the slot. -/
theorem exec_table_cases {i : Instr} {k : Slot} (hf : family i = .table) (hk : slotOperand i = some k) (s : State) :
    (((∃ a, i = .tird k a) ∨ i = .tcommit k) ∧ ∃ c, ∀ u : State, u.slot k = s.slot k → commandError i u = some c) ∨
    ((∃ a, i = .trd k a ∨ i = .tird k a) ∧ ∃ r, ∀ u : State, u.slot k = s.slot k →
      commandError i u = none ∧ exec i u = .next (u.setRes r)) ∨
    ((∀ a, i ≠ .trd k a ∧ i ≠ .tird k a) ∧ ∃ c, ∀ u : State, u.slot k = s.slot k →
      commandError i u = none ∧ exec i u = .next (u.setSlot k c)) := by
  cases i <;> cases hf <;> cases hk
  case twr.refl.refl a b =>
    exact .inr (.inr ⟨by simp, _, fun u hu => ⟨rfl, by rw [exec_twr, hu]⟩⟩)
  case tswap.refl.refl i j =>
    exact .inr (.inr ⟨by simp, _, fun u hu => ⟨rfl, by rw [exec_tswap, hu]⟩⟩)
  case tident.refl.refl =>
    exact .inr (.inr ⟨by simp, _, fun u _ => ⟨rfl, exec_tident k u⟩⟩)
  case trd.refl.refl a =>
    exact .inr (.inl ⟨⟨a, .inl rfl⟩, _, fun u hu => ⟨rfl, by rw [exec_trd, hu]⟩⟩)
  case tird.refl.refl a =>
    cases hv : (s.slot k).valid with
    | false => exact .inl ⟨.inl ⟨a, rfl⟩, .tableInvalid, fun u hu => by simp [commandError, tableCheck, hu, hv]⟩
    | true =>
      refine .inr (.inl ⟨⟨a, .inr rfl⟩, lookup (s.slot k).tinv a, fun u hu => ⟨by simp [commandError, tableCheck, hu, hv], ?_⟩⟩)
      rw [exec_tird_of_valid (by rw [hu, hv]), hu]
  case tcommit.refl.refl =>
    by_cases hbij : IsBijection (s.slot k).t
    · obtain ⟨d, hd, _⟩ := commitSlot_of_isBijection hbij
      exact .inr (.inr ⟨by simp, d, fun u hu =>
        ⟨(commandError_tcommit_eq_none_iff k u).2 (hu ▸ hbij), exec_tcommit_of_commitSlot (hu ▸ hd)⟩⟩)
    · exact .inl ⟨.inr rfl, .notBijective, fun u hu => if_neg (hu ▸ mt (bijective_iff _).1 hbij)⟩

end Sys2Proof.Machine
end

section
/-! PROOFS. The statements of 41_tables.md. -/

namespace Sys2Proof.Machine

open Sys2Proof.Claims

/-- Settles O15: the one entry written, and the frame of a slot write. -/
theorem twrWritesOneEntry : Obligations.TwrWritesOneEntry := by
  intro k a b s
  refine ⟨encodingCard .twr a b k rfl, by decide, _, exec_twr k a b s, fun x => ?_, ?_, ?_, statusWord_setSlot_valid .., setSlot_frame ..⟩
  · rw [slot_setSlot_same, lookup_writeEntry]
  · rw [slot_setSlot_same]
  · rw [slot_setSlot_same]

/-- Settles O16: TRD answers the entry; after TIDENT that is the index. -/
theorem trdReadsTheForwardEntry : Obligations.TrdReadsTheForwardEntry := by
  intro k a s
  refine ⟨encodingCard .trd a 0 k rfl, exec_trd k a s, by decide, _, exec_tident .s0 s, ?_⟩
  rw [exec_trd, slot_setSlot_same, identitySlot, lookup_identityTable]
  rfl

/-- Settles O17: the byte TIRD answers is the one that the promise of R30 makes the forward table map back. -/
theorem tirdReadsTheInverseEntry : Obligations.TirdReadsTheInverseEntry := by
  intro k a s
  refine ⟨encodingCard .tird a 0 k rfl, exec_of_uncommitted rfl rfl, fun hv => exec_tird_of_valid hv a,
    fun hv hc => (tables_undo_of_coherent hv hc).2 a, by decide, fun hv hc hentry => ?_⟩
  rw [exec_tird_of_valid hv, ← hentry, (tables_undo_of_coherent hv hc).1]
  rfl

/-- Settles O18: a swap is the table after a transposition of the indices, so a bijection stays one. -/
theorem tswapSwapsTwoEntries : Obligations.TswapSwapsTwoEntries := by
  intro k i j s
  refine ⟨encodingCard .tswap i j k rfl, by decide, ⟨_, exec_tswap k i j s, ?_⟩, ⟨_, rfl, ?_⟩⟩
  · simp only [slot_setSlot_same, lookup_swapEntries_eq_comp_swap, Function.comp_apply, true_and]
    refine ⟨by rw [Equiv.swap_apply_left], by rw [Equiv.swap_apply_right],
      fun x hi hj => by rw [Equiv.swap_apply_of_ne_of_ne hi hj], fun h => by rw [h, swapEntries_self],
      fun _ => slot_setSlot_other s _, rfl, fun hbij => ?_⟩
    have hswapped := isBijection_swapEntries hbij i j
    obtain ⟨d, hd, _, hv, _⟩ := exec_tcommit_of_isBijection (k := k)
      (s := s.setSlot k { s.slot k with t := swapEntries (s.slot k).t i j, valid := false }) (by rwa [slot_setSlot_same])
    exact ⟨hswapped, _, hd, by rwa [slot_setSlot_same], rfl⟩
  · simp [lookup_swapEntries_eq_comp_swap]

/-- Settles O19: the identity is its own inverse, and putting a block through it changes no byte (`exec_sub_of_identitySlot`). -/
theorem tidentLoadsTheIdentity : Obligations.TidentLoadsTheIdentity := by
  intro k s
  have hslot : (s.setSlot k identitySlot).slot k = identitySlot := slot_setSlot_same s k _
  obtain ⟨hothers, hrest⟩ := setSlot_frame k identitySlot s
  refine ⟨encodingCard .tident 0 0 k rfl, _, exec_tident k s, ?_, ?_, ?_, statusWord_setSlot_valid .., hothers, hrest, ?_⟩
  · simp [identitySlot]
  · rw [hslot, identitySlot]
  · rw [hslot]
    exact identity_coherent
  · exact exec_sub_of_identitySlot hslot

/-- Settles O20: the check finds exactly the bijections, and only one table undoes a bijection. -/
theorem tcommitChecksAndDerivesTheInverse : Obligations.TcommitChecksAndDerivesTheInverse := by
  intro k s
  refine ⟨encodingCard .tcommit 0 0 k rfl, fun hbij => ?_, exec_tcommit_of_not_isBijection,
    not_isBijection_iff_exists_eq _, not_isBijection_iff_exists_missing _, exec_tcommit_of_coherent, fun hbij hc => ?_,
    by decide, ?_⟩
  · obtain ⟨d, hd, ht, hv, hc⟩ := exec_tcommit_of_isBijection hbij
    refine ⟨_, hd, ?_⟩
    rw [slot_setSlot_same]
    exact ⟨ht, (hc hv).2, hv, setSlot_frame ..⟩
  · exact Bool.eq_false_iff.2 fun hv => hbij (hc hv).1
  · obtain ⟨t, ht, hv, htinv⟩ := runCommands_swap_of_identity .s1 0 1 s
    exact ⟨t, ht, hv, fun x => (htinv x).trans (Equiv.swap_apply_def 0 1 x)⟩

/-- Settles O21: each of the cases of `exec_table_cases` is one update of a slot, of RES or of the report. -/
theorem tableCommandsTouchOnlyTheirSlot : Obligations.TableCommandsTouchOnlyTheirSlot := by
  refine ⟨fun i k s hf hk => ?_, fun w s hsl => ?_⟩
  · rcases exec_table_cases hf hk s with ⟨hi, c, hfails⟩ | ⟨hi, r, hwrites⟩ | ⟨hi, c, hwrites⟩
    · -- The check fails: only the report can differ.
      have hs := hfails s rfl
      refine ⟨_, exec_of_error hs, fun j _ => slot_raiseError .., raiseError_blk .., fun _ => raiseError_res .., ?_,
        fun h => (nomatch hs.symm.trans h), fun c' hc' => ?_, fun u hu => ⟨_, exec_of_error (hfails u hu), ?_,
          (hfails u hu).trans hs.symm, fun h => (nomatch hs.symm.trans h), fun he hw => ?_⟩⟩
      · rcases raiseError_cases c (encode i) s with ⟨_, h⟩ | ⟨_, h⟩ <;> rw [h]
      · obtain rfl := Option.some.inj (hs.symm.trans hc')
        exact ⟨rfl, hi⟩
      · rw [slot_raiseError, slot_raiseError, hu]
      · simp only [raiseError_err, raiseError_errcmd, he, hw, and_self]
    · -- RES is written.
      obtain ⟨hs, hexec⟩ := hwrites s rfl
      refine ⟨_, hexec, fun _ _ => rfl, rfl, fun hne => ?_, rfl, fun _ => ⟨rfl, rfl⟩, fun c hc => (nomatch hs.symm.trans hc),
        fun u hu => ?_⟩
      · obtain ⟨a, rfl | rfl⟩ := hi
        · exact absurd rfl (hne a).1
        · exact absurd rfl (hne a).2
      · obtain ⟨hu', hexec'⟩ := hwrites u hu
        exact ⟨_, hexec', hu, hu'.trans hs.symm, fun _ _ => rfl, fun he hw => ⟨he, hw⟩⟩
    · -- The slot is written.
      obtain ⟨hs, hexec⟩ := hwrites s rfl
      refine ⟨_, hexec, fun _ => slot_setSlot_other s c, rfl, fun _ => rfl, rfl, fun _ => ⟨rfl, rfl⟩,
        fun c hc => (nomatch hs.symm.trans hc), fun u hu => ?_⟩
      obtain ⟨hu', hexec'⟩ := hwrites u hu
      refine ⟨_, hexec', ?_, hu'.trans hs.symm, fun _ ⟨a, ha⟩ => absurd ha (not_or.2 (hi a)), fun he hw => ⟨he, hw⟩⟩
      rw [slot_setSlot_same, slot_setSlot_same]
  · have hillegal := decode_eq_none_of_slotThree hsl
    exact ⟨hillegal, issueCommand_of_illegal hillegal s⟩

/-- Settles O22: the slot stays uncommitted through every command but TIDENT and TCOMMIT on it. -/
theorem writingATableUncommitsItsSlot : Obligations.WritingATableUncommitsItsSlot := by
  intro i k s hi
  obtain ⟨t, ht, hv⟩ : ∃ t, exec i s = .next t ∧ (t.slot k).valid = false := by
    rcases hi with ⟨a, b, rfl | rfl⟩
    · exact ⟨_, exec_twr k a b s, by rw [slot_setSlot_same]⟩
    · exact ⟨_, exec_tswap k a b s, by rw [slot_setSlot_same]⟩
  refine ⟨t, ht, hv, fun c hc => ?_⟩
  obtain ⟨hneeds, hk⟩ : needsCommitted c = true ∧ slotOperand c = some k := by
    simp only [List.mem_cons, List.not_mem_nil, or_false] at hc
    rcases hc with rfl | rfl | rfl | rfl <;> exact ⟨rfl, rfl⟩
  exact ⟨exec_of_uncommitted hneeds hk hv, fun is u his hu =>
    exec_of_uncommitted hneeds hk (runCommands_keeps_uncommitted his hu hv)⟩

/-- Settles O23: both commands leave a committed slot that keeps the promise of R30. -/
theorem committedTablesUndoEachOther : Obligations.CommittedTablesUndoEachOther := by
  rintro k i s t (rfl | ⟨rfl, hcheck⟩) h
  · cases h
    rw [slot_setSlot_same]
    exact tables_undo_of_coherent rfl identity_coherent
  · have hbij := (commandError_tcommit_eq_none_iff k s).1 hcheck
    obtain ⟨d, hd, _, hv, hc⟩ := exec_tcommit_of_isBijection hbij
    cases hd.symm.trans h
    rw [slot_setSlot_same]
    exact tables_undo_of_coherent hv hc

end Sys2Proof.Machine
end

section
/-! PROOFS. The two substitution layers (42_substitution.md R110, R111) and their commands (R112, R113). -/

namespace Sys2Proof.Machine

open Sys2Proof.Claims

/-! ### The layers, lane by lane -/

theorem getElem_substitute (t : ByteTable) (b : Block) (i : Fin 16) : (substitute t b)[i] = lookup t b[i] := by
  simp [substitute]

theorem block_ext {b d : Block} (h : ∀ i : Fin 16, b[i] = d[i]) : b = d :=
  Vector.ext fun i hi => h ⟨i, hi⟩

/-- A table that maps back what another answers does so in every lane of a block. -/
theorem substitute_substitute_of_undoes {t u : ByteTable} (h : ∀ x : Byte, lookup u (lookup t x) = x) (b : Block) :
    substitute u (substitute t b) = b :=
  block_ext fun i => by rw [getElem_substitute, getElem_substitute, h]

theorem invSubLayer_subLayer {c : SlotState} (hv : c.valid = true) (hc : c.Coherent) (b : Block) :
    invSubLayer c (subLayer c b) = b :=
  substitute_substitute_of_undoes (tables_undo_of_coherent hv hc).1 b

theorem subLayer_invSubLayer {c : SlotState} (hv : c.valid = true) (hc : c.Coherent) (b : Block) :
    subLayer c (invSubLayer c b) = b :=
  substitute_substitute_of_undoes (tables_undo_of_coherent hv hc).2 b

/-- The identity with entries 0 and 1 exchanged puts 00, 01, 02, ..., 0F to 01, 00, 02, ..., 0F. -/
theorem substitute_swap_countingBlock : substitute (swapEntries identityTable 0 1) countingBlock =
    blockOfWords 0x03020001 0x07060504 0x0B0A0908 0x0F0E0D0C := by
  refine block_ext fun i => ?_
  rw [getElem_substitute, lookup_swapEntries_eq_comp_swap, Function.comp_apply, lookup_identityTable, Equiv.swap_apply_def]
  decide +revert

/-! ### The commands -/

theorem exec_sub_of_valid {k : Slot} {s : State} (h : (s.slot k).valid = true) :
    exec (.sub k) s = .next (s.setBlk (subLayer (s.slot k) s.blk)) :=
  congrArg Host.Outcome.next (withCommitted_of_valid _ _ h)

theorem exec_isub_of_valid {k : Slot} {s : State} (h : (s.slot k).valid = true) :
    exec (.isub k) s = .next (s.setBlk (invSubLayer (s.slot k) s.blk)) :=
  congrArg Host.Outcome.next (withCommitted_of_valid _ _ h)

/-- SUB then ISUB on one committed slot puts the block through both layers (42_substitution.md R113). -/
theorem runCommands_sub_isub_of_valid {k : Slot} {s : State} (h : (s.slot k).valid = true) :
    runCommands [.sub k, .isub k] s = .next (s.setBlk (invSubLayer (s.slot k) (subLayer (s.slot k) s.blk))) := by
  rw [runCommands_cons_of_next (exec_sub_of_valid h)]
  exact runCommands_cons_of_next (exec_isub_of_valid (by rwa [slot_setBlk])) _

end Sys2Proof.Machine
end

section
/-! PROOFS. The statements of 42_substitution.md. -/

namespace Sys2Proof.Machine

open Sys2Proof.Claims

/-- Settles O24: a committed slot's T is applied in each lane, and only BLK is written. -/
theorem subPutsEachByteThroughT : Obligations.SubPutsEachByteThroughT := by
  intro k s
  refine ⟨encodingCard .sub 0 0 k rfl, exec_of_uncommitted rfl rfl, fun hv => ?_, fun hv htable hblk => ?_⟩
  · exact ⟨_, exec_sub_of_valid hv, getElem_substitute _ _, rfl⟩
  · rw [exec_sub_of_valid hv, subLayer, htable, hblk, substitute_swap_countingBlock]
    rfl

/-- Settles O25: a committed slot's TINV is applied in each lane; after SUB on a slot that keeps R30 every lane is back
(`invSubLayer_subLayer`). -/
theorem isubPutsEachByteThroughTinv : Obligations.IsubPutsEachByteThroughTinv := by
  intro k s
  refine ⟨encodingCard .isub 0 0 k rfl, exec_of_uncommitted rfl rfl, fun hv => ?_, fun hv hc => ?_⟩
  · exact ⟨_, exec_isub_of_valid hv, getElem_substitute _ _, rfl⟩
  · rw [runCommands_sub_isub_of_valid hv, invSubLayer_subLayer hv hc]
    rfl

/-- Settles O26: the layers apply two tables that undo each other (`tables_undo_of_coherent`). -/
theorem substitutionLayersUndoEachOther : Obligations.SubstitutionLayersUndoEachOther := by
  intro c b hv hc
  exact ⟨getElem_substitute c.tinv b, invSubLayer_subLayer hv hc b, subLayer_invSubLayer hv hc b⟩

end Sys2Proof.Machine
end

section
/-! PROOFS. The layers of the AES round (43_mixing.md R120 to R126), each with the layer that undoes it. -/

namespace Sys2Proof.Machine

open Sys2Proof.Claims

/-! ### The S-box and SubBytes (R120 to R123) -/

/-- A property of every index and its entry, checked along the list of entries. -/
theorem forall_lookup_of_forall_mem_zipIdx {t : ByteTable} {P : Byte → Byte → Prop}
    (h : ∀ e ∈ t.toList.zipIdx, P (BitVec.ofNat 8 e.2) e.1) (x : Byte) : P x (lookup t x) := by
  have hx := h (lookup t x, x.toNat) (List.mk_mem_zipIdx_iff_getElem?.2 (by simp [lookup]))
  rwa [BitVec.ofNat_toNat, BitVec.setWidth_eq] at hx

/-- The field inverse with 0 for 0, the first step of R120. -/
def fieldInverse (x : Byte) : Byte := (gfInv x).getD 0

/-- The affine transform, the second step of R120. -/
def affine (y : Byte) : Byte :=
  BitVec.ofFnLE fun i : Fin 8 =>
    (y.getLsbD i.val).xor <| (y.getLsbD ((i.val + 4) % 8)).xor <| (y.getLsbD ((i.val + 5) % 8)).xor <|
      (y.getLsbD ((i.val + 6) % 8)).xor <| (y.getLsbD ((i.val + 7) % 8)).xor ((0x63#8).getLsbD i.val)

/-- The affine transform backwards (`affine_unaffine`). -/
def unaffine (s : Byte) : Byte := s.rotateLeft 1 ^^^ s.rotateLeft 3 ^^^ s.rotateLeft 6 ^^^ 0x05#8

theorem sboxFormula_eq (x : Byte) : sboxFormula x = affine (fieldInverse x) := by
  unfold sboxFormula fieldInverse
  cases gfInv x <;> rfl

theorem affine_unaffine (s : Byte) : affine (unaffine s) = s := by
  decide +kernel +revert

/-- What `fieldInverse` answers, as an equation that is cheap to check. -/
abbrev InverseOrZero (x y : Byte) : Prop := x = 0 ∧ y = 0 ∨ gfMul x y = 1

theorem fieldInverse_eq {x y : Byte} (h : InverseOrZero x y) : fieldInverse x = y := by
  rcases h with ⟨rfl, rfl⟩ | h
  · rfl
  · rw [fieldInverse, (gfInv_eq_some_iff x y).2 h, Option.getD_some]

theorem fieldInverse_fieldInverse (x : Byte) : fieldInverse (fieldInverse x) = x := by
  by_cases hx : x = 0
  · subst hx
    rfl
  · have hmul := gfMul_gfSquares_seven hx
    rw [fieldInverse_eq (.inr hmul), fieldInverse_eq (.inr (gfMul_comm x _ ▸ hmul))]

/-- Each entry of S, taken back through the affine transform, is the inverse of its index. -/
theorem unaffine_sbox (x : Byte) : unaffine (sbox x) = fieldInverse x :=
  (fieldInverse_eq (forall_lookup_of_forall_mem_zipIdx (t := sboxTable) (P := fun x s => InverseOrZero x (unaffine s))
    (by decide +kernel) x)).symm

/-- Each entry of InvS is the inverse of its index taken back through the affine transform. -/
theorem invSbox_eq (s : Byte) : invSbox s = fieldInverse (unaffine s) :=
  (fieldInverse_eq (forall_lookup_of_forall_mem_zipIdx (t := invSboxTable) (P := fun s x => InverseOrZero (unaffine s) x)
    (by decide +kernel) s)).symm

theorem sbox_eq_sboxFormula (x : Byte) : sbox x = sboxFormula x := by
  rw [sboxFormula_eq, ← unaffine_sbox, affine_unaffine]

theorem invSbox_sbox (x : Byte) : invSbox (sbox x) = x := by
  rw [invSbox_eq, unaffine_sbox, fieldInverse_fieldInverse]

/-- S has a left inverse, so it is injective. -/
theorem isBijection_sboxTable : IsBijection sboxTable :=
  (isBijection_iff_injective _).2 (Function.LeftInverse.injective invSbox_sbox)

theorem sbox_invSbox (x : Byte) : sbox (invSbox x) = x :=
  lookup_lookup_inverse isBijection_sboxTable invSbox_sbox x

theorem getElem_subBytes (b : Block) (i : Fin 16) : (subBytes b)[i] = sbox b[i] :=
  getElem_substitute sboxTable b i

theorem invSubBytes_subBytes (b : Block) : invSubBytes (subBytes b) = b :=
  substitute_substitute_of_undoes invSbox_sbox b

theorem subBytes_invSubBytes (b : Block) : subBytes (invSubBytes b) = b :=
  substitute_substitute_of_undoes sbox_invSbox b

/-! ### Rows and columns of a block (00_scope.md R11) -/

@[simp] theorem rowOf_matrixIndex (r c : Fin 4) : rowOf (matrixIndex r c) = r := by
  decide +revert

@[simp] theorem colOf_matrixIndex (r c : Fin 4) : colOf (matrixIndex r c) = c := by
  decide +revert

@[simp] theorem matrixIndex_rowOf_colOf (i : Fin 16) : matrixIndex (rowOf i) (colOf i) = i := by
  decide +revert

theorem getElem_matrixIndex (b : Block) (r c : Fin 4) : b[matrixIndex r c] = b[4 * c.val + r.val] :=
  (Fin.getElem_fin ..).trans (getElem_congr_idx (Nat.add_comm ..))

/-! ### ShiftRows (R124) -/

theorem getElem_shiftRows (b : Block) (i : Fin 16) : (shiftRows b)[i] = b[matrixIndex (rowOf i) (colOf i + rowOf i)] :=
  getElem_tabulate ..

theorem getElem_invShiftRows (b : Block) (i : Fin 16) :
    (invShiftRows b)[i] = b[matrixIndex (rowOf i) (colOf i - rowOf i)] :=
  getElem_tabulate ..

theorem invShiftRows_shiftRows (b : Block) : invShiftRows (shiftRows b) = b :=
  block_ext fun i => by
    rw [getElem_invShiftRows, getElem_shiftRows]
    simp only [rowOf_matrixIndex, colOf_matrixIndex, sub_add_cancel, matrixIndex_rowOf_colOf]

theorem shiftRows_invShiftRows (b : Block) : shiftRows (invShiftRows b) = b :=
  block_ext fun i => by
    rw [getElem_shiftRows, getElem_invShiftRows]
    simp only [rowOf_matrixIndex, colOf_matrixIndex, add_sub_cancel_right, matrixIndex_rowOf_colOf]

theorem shiftRows_subBytes (b : Block) : shiftRows (subBytes b) = subBytes (shiftRows b) :=
  block_ext fun i => by rw [getElem_shiftRows, getElem_subBytes, getElem_subBytes, getElem_shiftRows]

/-- The index table of ShiftRows (R124). -/
theorem shiftRows_index (i : Fin 16) : matrixIndex (rowOf i) (colOf i + rowOf i) =
    (#v[0, 5, 10, 15, 4, 9, 14, 3, 8, 13, 2, 7, 12, 1, 6, 11] : Vector (Fin 16) 16)[i] := by
  decide +revert

/-- The index table of InvShiftRows (R124). -/
theorem invShiftRows_index (i : Fin 16) : matrixIndex (rowOf i) (colOf i - rowOf i) =
    (#v[0, 13, 10, 7, 4, 1, 14, 11, 8, 5, 2, 15, 12, 9, 6, 3] : Vector (Fin 16) 16)[i] := by
  decide +revert

/-! ### AddRoundKey (R126) -/

theorem getElem_addRoundKey (b key : Block) (i : Fin 16) : (addRoundKey b key)[i] = b[i] ^^^ key[i] :=
  getElem_tabulate ..

theorem addRoundKey_addRoundKey (b key : Block) : addRoundKey (addRoundKey b key) key = b :=
  block_ext fun i => by simp only [getElem_addRoundKey, BitVec.xor_assoc, BitVec.xor_self, BitVec.xor_zero]

/-! ### MixColumns (R125): products of matrices over the field -/

/-- A byte of `mulColumns m b`: its row of the matrix times its column of the block. -/
theorem mulColumns_matrixIndex (m : Vector (Vector Byte 4) 4) (b : Block) (r c : Fin 4) :
    (mulColumns m b)[matrixIndex r c] =
      gfMul m[r][0] b[matrixIndex 0 c] ^^^ gfMul m[r][1] b[matrixIndex 1 c] ^^^ gfMul m[r][2] b[matrixIndex 2 c] ^^^
        gfMul m[r][3] b[matrixIndex 3 c] := by
  calc (mulColumns m b)[matrixIndex r c] = _ := getElem_tabulate ..
    _ = _ := by simp only [Fin.eta, rowOf_matrixIndex, colOf_matrixIndex]; rfl

/-- `mulColumns_matrixIndex` with the indices of 43_mixing.md R125. -/
theorem getElem_mulColumns (m : Vector (Vector Byte 4) 4) (b : Block) (r c : Fin 4) :
    (mulColumns m b)[4 * c.val + r.val] =
      gfMul m[r][0] b[4 * c.val] ^^^ gfMul m[r][1] b[4 * c.val + 1] ^^^ gfMul m[r][2] b[4 * c.val + 2] ^^^
        gfMul m[r][3] b[4 * c.val + 3] := by
  rw [← getElem_matrixIndex, mulColumns_matrixIndex]
  simp only [getElem_matrixIndex]
  rfl

/-- A byte matrix as a matrix of residues. -/
noncomputable def residueMatrix (m : Vector (Vector Byte 4) 4) : Matrix (Fin 4) (Fin 4) (AdjoinRoot rijndael) :=
  .of fun r k => residue m[r][k]

/-- A column of a block as a vector of residues. -/
noncomputable def residueColumn (b : Block) (c : Fin 4) : Fin 4 → AdjoinRoot rijndael :=
  fun r => residue b[matrixIndex r c]

theorem residueColumn_mulColumns (m : Vector (Vector Byte 4) 4) (b : Block) (c : Fin 4) :
    residueColumn (mulColumns m b) c = (residueMatrix m).mulVec (residueColumn b c) := by
  funext r
  have hrow := congrArg residue (mulColumns_matrixIndex m b r c)
  simpa [residueColumn, residueMatrix, Matrix.mulVec, dotProduct, Fin.sum_univ_four] using hrow

theorem block_ext_residueColumn {b d : Block} (h : ∀ c : Fin 4, residueColumn b c = residueColumn d c) : b = d := by
  refine block_ext fun i => residue_injective ?_
  simpa [residueColumn] using congrFun (h (colOf i)) (rowOf i)

/-- Matrices that are inverse to each other undo each other in every column. -/
theorem mulColumns_mulColumns_of_mul_eq_one {m n : Vector (Vector Byte 4) 4} (h : residueMatrix m * residueMatrix n = 1)
    (b : Block) : mulColumns m (mulColumns n b) = b :=
  block_ext_residueColumn fun c => by
    rw [residueColumn_mulColumns, residueColumn_mulColumns, Matrix.mulVec_mulVec, h, Matrix.one_mulVec]

/-- The sixteen entries of the product, computed on bytes. -/
theorem invMixMatrix_row_mixMatrix_column (r c : Fin 4) :
    gfMul invMixMatrix[r][0] mixMatrix[0][c] ^^^ gfMul invMixMatrix[r][1] mixMatrix[1][c] ^^^
      gfMul invMixMatrix[r][2] mixMatrix[2][c] ^^^ gfMul invMixMatrix[r][3] mixMatrix[3][c] = if r = c then 1#8 else 0#8 := by
  decide +kernel +revert

theorem residueMatrix_invMixMatrix_mul_mixMatrix : residueMatrix invMixMatrix * residueMatrix mixMatrix = 1 := by
  ext r c
  have h := congrArg residue (invMixMatrix_row_mixMatrix_column r c)
  simpa [residueMatrix, Matrix.mul_apply, Matrix.one_apply, Fin.sum_univ_four, apply_ite residue] using h

theorem invMixColumns_mixColumns (b : Block) : invMixColumns (mixColumns b) = b :=
  mulColumns_mulColumns_of_mul_eq_one residueMatrix_invMixMatrix_mul_mixMatrix b

/-- A left inverse of a square matrix is a right inverse. -/
theorem mixColumns_invMixColumns (b : Block) : mixColumns (invMixColumns b) = b :=
  mulColumns_mulColumns_of_mul_eq_one (mul_eq_one_comm.1 residueMatrix_invMixMatrix_mul_mixMatrix) b

end Sys2Proof.Machine
end

section
/-! PROOFS. The round and the layers of several rounds (43_mixing.md R127 to R129): what undoes them, and what they do to a block of 16
equal bytes. -/

namespace Sys2Proof.Machine

open Sys2Proof.Claims

/-! ### The inverse round (R128) -/

theorem invMixRound_mixRound (key b : Block) : invMixRound key (mixRound key b) = b := by
  rw [invMixRound, mixRound, addRoundKey_addRoundKey, invMixColumns_mixColumns, invShiftRows_shiftRows, invSubBytes_subBytes]

theorem mixRound_invMixRound (key b : Block) : mixRound key (invMixRound key b) = b := by
  rw [invMixRound, mixRound, subBytes_invSubBytes, shiftRows_invShiftRows, mixColumns_invMixColumns, addRoundKey_addRoundKey]

theorem iterate_invMixRound_iterate_mixRound (key : Block) (n : ℕ) (b : Block) :
    (invMixRound key)^[n] ((mixRound key)^[n] b) = b :=
  Function.LeftInverse.iterate (invMixRound_mixRound key) n b

/-! ### Constant blocks -/

theorem getElem_constantBlock (b : Byte) (i : Fin 16) : (constantBlock b)[i] = b :=
  getElem_tabulate ..

/-- The coefficients of each row of the MixColumns matrix sum to 1. -/
theorem mixMatrix_row_sum (r : Fin 4) : mixMatrix[r][0] ^^^ mixMatrix[r][1] ^^^ mixMatrix[r][2] ^^^ mixMatrix[r][3] = 1#8 := by
  decide +revert

theorem mixColumns_constantBlock (b : Byte) : mixColumns (constantBlock b) = constantBlock b := by
  refine block_ext fun i => ?_
  rw [← matrixIndex_rowOf_colOf i, mixColumns, mulColumns_matrixIndex]
  simp only [getElem_constantBlock, gfMul_comm _ b, ← gfMul_xor, mixMatrix_row_sum, gfMul_one]

/-- A round under a constant key keeps a constant block constant (R130). -/
theorem mixRound_constantBlock (k b : Byte) :
    mixRound (constantBlock k) (constantBlock b) = constantBlock (sbox b ^^^ k) := by
  have hsub : subBytes (constantBlock b) = constantBlock (sbox b) :=
    block_ext fun i => by simp only [getElem_subBytes, getElem_constantBlock]
  have hshift : shiftRows (constantBlock (sbox b)) = constantBlock (sbox b) :=
    block_ext fun i => by simp only [getElem_shiftRows, getElem_constantBlock]
  rw [mixRound, hsub, hshift, mixColumns_constantBlock]
  exact block_ext fun i => by simp only [getElem_addRoundKey, getElem_constantBlock]

/-- The byte of a constant block runs through the rounds on its own. -/
theorem iterate_mixRound_constantBlock (k : Byte) (n : ℕ) (b : Byte) :
    (mixRound (constantBlock k))^[n] (constantBlock b) = constantBlock ((fun x => sbox x ^^^ k)^[n] b) :=
  (Function.Semiconj.iterate_right (fun x => (mixRound_constantBlock k x).symm) n b).symm

end Sys2Proof.Machine
end

section
/-! PROOFS. What each mixing command does (43_mixing.md R130 to R134). -/

namespace Sys2Proof.Machine

open Sys2Proof.Claims

theorem exec_permf (s : State) :
    exec .permf s = .next { s with blk := (mixRound (constantBlock 0x00))^[s.p1.toNat] s.blk } := rfl

theorem exec_perms (s : State) :
    exec .perms s = .next { s with blk := (mixRound (constantBlock 0xFF))^[s.p2.toNat] s.blk } := rfl

theorem exec_ipermf (s : State) :
    exec .ipermf s = .next { s with blk := (invMixRound (constantBlock 0x00))^[s.p1.toNat] s.blk } := rfl

theorem exec_iperms (s : State) :
    exec .iperms s = .next { s with blk := (invMixRound (constantBlock 0xFF))^[s.p2.toNat] s.blk } := rfl

/-- A mixing command writes to BLK a function of P1, P2 and BLK, and does nothing else (R134). -/
theorem exec_of_mixing {i : Instr} (h : family i = .mixing) :
    ∃ f : Byte → Byte → Block → Block, ∀ s : State, exec i s = .next { s with blk := f s.p1 s.p2 s.blk } := by
  cases i <;> cases h
  case permf => exact ⟨fun p _ b => permFirst p b, exec_permf⟩
  case perms => exact ⟨fun _ p b => permSecond p b, exec_perms⟩
  case ipermf => exact ⟨fun p _ b => invPermFirst p b, exec_ipermf⟩
  case iperms => exact ⟨fun _ p b => invPermSecond p b, exec_iperms⟩

theorem exec_permf_constantBlock {s : State} {p b : Byte} (hblk : s.blk = constantBlock b) (hp : s.p1 = p) :
    exec .permf s = .next { s with blk := constantBlock ((fun x => sbox x ^^^ 0x00)^[p.toNat] b) } := by
  rw [exec_permf, hblk, hp, iterate_mixRound_constantBlock]

theorem exec_perms_constantBlock {s : State} {p b : Byte} (hblk : s.blk = constantBlock b) (hp : s.p2 = p) :
    exec .perms s = .next { s with blk := constantBlock ((fun x => sbox x ^^^ 0xFF)^[p.toNat] b) } := by
  rw [exec_perms, hblk, hp, iterate_mixRound_constantBlock]

end Sys2Proof.Machine
end

section
/-! PROOFS. The statements of 43_mixing.md. -/

namespace Sys2Proof.Machine

open Sys2Proof.Claims

/-- Settles O27: every entry of either table is a field inverse on the far side of the affine transform (`unaffine_sbox`, `invSbox_eq`), and
InvS is a right inverse too because S is a bijection. -/
theorem sboxTableIsTheAffineInverse : Obligations.SboxTableIsTheAffineInverse :=
  ⟨sbox_eq_sboxFormula, invSbox_sbox, sbox_invSbox, rfl, rfl, rfl⟩

/-- Settles O28: the rows are those of `getElem_mulColumns`, where a coefficient 1 leaves its byte; the two matrices are inverse over the
field (`residueMatrix_invMixMatrix_mul_mixMatrix`). -/
theorem mixColumnsIsInvertible : Obligations.MixColumnsIsInvertible := by
  refine ⟨fun b c => ?_, fun b c => ?_, fun b => ⟨invMixColumns_mixColumns b, mixColumns_invMixColumns b⟩, by decide +kernel⟩
  · refine ⟨(getElem_mulColumns mixMatrix b 0 c).trans ?_, (getElem_mulColumns mixMatrix b 1 c).trans ?_,
      (getElem_mulColumns mixMatrix b 2 c).trans ?_, (getElem_mulColumns mixMatrix b 3 c).trans ?_⟩ <;> simp [mixMatrix]
  · exact ⟨getElem_mulColumns invMixMatrix b 0 c, getElem_mulColumns invMixMatrix b 1 c, getElem_mulColumns invMixMatrix b 2 c,
      getElem_mulColumns invMixMatrix b 3 c⟩

/-- Settles O29: each layer of the inverse round undoes the layer of the round in its place. -/
theorem inverseRoundUndoesTheRound : Obligations.InverseRoundUndoesTheRound := by
  refine fun key b => ⟨fun i => ⟨?_, ?_, getElem_addRoundKey b key i⟩, addRoundKey_addRoundKey b key, rfl, shiftRows_subBytes b, rfl,
    invMixRound_mixRound key b, mixRound_invMixRound key b⟩
  · simp only [getElem_shiftRows, shiftRows_index]
  · simp only [getElem_invShiftRows, invShiftRows_index]

/-- Settles O30: the zero block stays constant, so its rounds are those of one byte (`iterate_mixRound_constantBlock`). -/
theorem permfAppliesTheFirstLayer : Obligations.PermfAppliesTheFirstLayer := by
  refine ⟨encodingCard .permf 0 0 .s0 rfl, exec_permf, fun b => ?_, fun s hblk =>
    ⟨exec_permf_constantBlock hblk, exec_permf_constantBlock hblk, exec_permf_constantBlock hblk⟩,
    fun s hblk hp => ?_⟩
  · exact (mixRound_constantBlock 0x00 b).trans (congrArg constantBlock BitVec.xor_zero)
  · have hround : mixRound (constantBlock 0x00) countingBlock =
        blockOfWords 0x455C6A6A 0x51336D2C 0x615DD9B0 0x5C219C27 := by decide +kernel
    rw [exec_permf, hblk, hp, ← hround]
    rfl

/-- Settles O31: as for PERMF, with the other key (`iterate_mixRound_constantBlock`). -/
theorem permsAppliesTheSecondLayer : Obligations.PermsAppliesTheSecondLayer := by
  refine ⟨encodingCard .perms 0 0 .s0 rfl, exec_perms, fun s hblk =>
    ⟨exec_perms_constantBlock hblk, exec_perms_constantBlock hblk, exec_perms_constantBlock hblk⟩,
    fun s hblk hp => ?_⟩
  · have hround : mixRound (constantBlock 0xFF) countingBlock =
        blockOfWords 0xBAA39595 0xAECC92D3 0x9EA2264F 0xA3DE63D8 := by decide +kernel
    rw [exec_perms, hblk, hp, ← hround]
    rfl

/-- Settles O32: PERMF keeps P1, so IPERMF undoes as many rounds as it ran (`iterate_invMixRound_iterate_mixRound`). -/
theorem ipermfUndoesTheFirstLayer : Obligations.IpermfUndoesTheFirstLayer := by
  refine ⟨encodingCard .ipermf 0 0 .s0 rfl, exec_ipermf, fun s => ?_, fun s hblk hp => ?_⟩
  · rw [runCommands_cons_of_next (exec_permf s), runCommands_cons_of_next (exec_ipermf _), iterate_invMixRound_iterate_mixRound]
    rfl
  · have hround : invMixRound (constantBlock 0x00) countingBlock =
        blockOfWords 0x4052D5A3 0x3630FBD7 0x09BF9E6A 0xF38138A5 := by decide +kernel
    rw [exec_ipermf, hblk, hp, ← hround]
    rfl

/-- Settles O33: PERMS keeps P2, so IPERMS undoes as many rounds as it ran (`iterate_invMixRound_iterate_mixRound`). -/
theorem ipermsUndoesTheSecondLayer : Obligations.IpermsUndoesTheSecondLayer := by
  refine ⟨encodingCard .iperms 0 0 .s0 rfl, exec_iperms, fun s => ?_, fun s hblk hp => ?_⟩
  · rw [runCommands_cons_of_next (exec_perms s), runCommands_cons_of_next (exec_iperms _), iterate_invMixRound_iterate_mixRound]
    rfl
  · have hround : invMixRound (constantBlock 0xFF) countingBlock =
        blockOfWords 0xD67D5577 0x1463172B 0x0C26BA21 0x047EE169 := by decide +kernel
    rw [exec_iperms, hblk, hp, ← hround]
    rfl

/-- Settles O34: the block written is the function of `exec_of_mixing` at the state's P1, P2 and BLK. -/
theorem mixingCommandsWriteOnlyBlk : Obligations.MixingCommandsWriteOnlyBlk := by
  intro i s hi
  obtain ⟨f, hexec⟩ := exec_of_mixing hi
  refine ⟨_, hexec s, fun s' hblk hp1 hp2 => ?_⟩
  rw [hexec s', hblk, hp1, hp2]

end Sys2Proof.Machine
end

section
/-! PROOFS. The encrypt and decrypt pipelines as functions of the block (44_pipeline.md R140), and that each undoes the other (R144). -/

namespace Sys2Proof.Machine

open Sys2Proof.Claims

/-! ### The permutation layers and what undoes them (43_mixing.md R129) -/

theorem iterate_mixRound_iterate_invMixRound (key : Block) (n : ℕ) (b : Block) :
    (mixRound key)^[n] ((invMixRound key)^[n] b) = b :=
  Function.LeftInverse.iterate (mixRound_invMixRound key) n b

theorem invPermFirst_permFirst (p1 : Byte) (b : Block) : invPermFirst p1 (permFirst p1 b) = b :=
  iterate_invMixRound_iterate_mixRound keyFirst p1.toNat b

theorem permFirst_invPermFirst (p1 : Byte) (b : Block) : permFirst p1 (invPermFirst p1 b) = b :=
  iterate_mixRound_iterate_invMixRound keyFirst p1.toNat b

theorem invPermSecond_permSecond (p2 : Byte) (b : Block) : invPermSecond p2 (permSecond p2 b) = b :=
  iterate_invMixRound_iterate_mixRound keySecond p2.toNat b

theorem permSecond_invPermSecond (p2 : Byte) (b : Block) : permSecond p2 (invPermSecond p2 b) = b :=
  iterate_mixRound_iterate_invMixRound keySecond p2.toNat b

/-! ### The pipelines -/

/-- From the outside in, each layer of the decrypt pipeline undoes the layer of the encrypt pipeline in the mirrored place. -/
theorem decrypt_encrypt {c : SlotState} (hv : c.valid = true) (hc : c.Coherent) (p1 p2 : Byte) (b : Block) :
    decrypt p1 p2 c (encrypt p1 p2 c b) = b := by
  simp only [decrypt, encrypt, invSubLayer_subLayer hv hc, invPermSecond_permSecond, invPermFirst_permFirst]

theorem encrypt_decrypt {c : SlotState} (hv : c.valid = true) (hc : c.Coherent) (p1 p2 : Byte) (b : Block) :
    encrypt p1 p2 c (decrypt p1 p2 c b) = b := by
  simp only [decrypt, encrypt, subLayer_invSubLayer hv hc, permSecond_invPermSecond, permFirst_invPermFirst]

/-! ### The identity slot -/

theorem encrypt_identitySlot (p1 p2 : Byte) (b : Block) :
    encrypt p1 p2 identitySlot b = permSecond p2 (permFirst p1 b) := by
  simp only [encrypt, subLayer_identitySlot]

/-- With an identity slot only the rounds are left, and they keep a constant block constant (R141). -/
theorem encrypt_identitySlot_constantBlock (p1 p2 b : Byte) :
    ∃ c : Byte, encrypt p1 p2 identitySlot (constantBlock b) = constantBlock c := by
  have hfirst := iterate_mixRound_constantBlock 0x00 p1.toNat b
  have hsecond := iterate_mixRound_constantBlock 0xFF p2.toNat ((fun x => sbox x ^^^ 0x00)^[p1.toNat] b)
  rw [← hfirst] at hsecond
  exact ⟨_, (encrypt_identitySlot ..).trans hsecond⟩

/-- The example of R141. -/
theorem encrypt_identitySlot_textBlock :
    encrypt 1 1 identitySlot textBlock = blockOfWords 0x1E480EE5 0x06F801B1 0x19CCA720 0x9094B240 := by
  rw [encrypt_identitySlot]
  decide +kernel

/-- The example of R142: the identity slot keeps R30, so the example of R141 decrypts to its text. -/
theorem decrypt_identitySlot_cipherBlock :
    decrypt 1 1 identitySlot (blockOfWords 0x1E480EE5 0x06F801B1 0x19CCA720 0x9094B240) = textBlock := by
  rw [← encrypt_identitySlot_textBlock]
  exact decrypt_encrypt (c := identitySlot) rfl identity_coherent 1 1 textBlock

end Sys2Proof.Machine
end

section
/-! PROOFS. What ENC and DEC do (44_pipeline.md R141, R142), the five commands each stands for (R143), and commands in between (R144). -/

namespace Sys2Proof.Machine

open Sys2Proof.Claims

theorem exec_enc_of_valid {k : Slot} {s : State} (h : (s.slot k).valid = true) :
    exec (.enc k) s = .next (s.setBlk (encrypt s.p1 s.p2 (s.slot k) s.blk)) :=
  congrArg Host.Outcome.next (withCommitted_of_valid _ _ h)

theorem exec_dec_of_valid {k : Slot} {s : State} (h : (s.slot k).valid = true) :
    exec (.dec k) s = .next (s.setBlk (decrypt s.p1 s.p2 (s.slot k) s.blk)) :=
  congrArg Host.Outcome.next (withCommitted_of_valid _ _ h)

/-! ### Layers in a row -/

/-- Commands that each put BLK through a layer, in a row: BLK goes through the layers in that order. -/
theorem runCommands_of_layers {s : State} {is : List Instr} {layers : List (Block → Block)}
    (h : List.Forall₂ (fun i f => ∀ b, exec i (s.setBlk b) = .next (s.setBlk (f b))) is layers) (b : Block) :
    runCommands is (s.setBlk b) = .next (s.setBlk (layers.foldl (fun d f => f d) b)) := by
  induction h generalizing b with
  | nil => rfl
  | cons hi _ ih => rw [runCommands_cons_of_next (hi b), ih, List.foldl_cons]

theorem runCommands_encrypt_layers {k : Slot} {s : State} (h : (s.slot k).valid = true) :
    runCommands [.sub k, .permf, .sub k, .perms, .sub k] s = .next (s.setBlk (encrypt s.p1 s.p2 (s.slot k) s.blk)) :=
  have hsub (b : Block) : exec (.sub k) (s.setBlk b) = .next (s.setBlk (subLayer (s.slot k) b)) :=
    exec_sub_of_valid (s := s.setBlk b) h
  have hpermf (b : Block) : exec .permf (s.setBlk b) = .next (s.setBlk (permFirst s.p1 b)) := exec_permf _
  have hperms (b : Block) : exec .perms (s.setBlk b) = .next (s.setBlk (permSecond s.p2 b)) := exec_perms _
  runCommands_of_layers (.cons hsub (.cons hpermf (.cons hsub (.cons hperms (.cons hsub .nil))))) s.blk

theorem runCommands_decrypt_layers {k : Slot} {s : State} (h : (s.slot k).valid = true) :
    runCommands [.isub k, .iperms, .isub k, .ipermf, .isub k] s = .next (s.setBlk (decrypt s.p1 s.p2 (s.slot k) s.blk)) :=
  have hisub (b : Block) : exec (.isub k) (s.setBlk b) = .next (s.setBlk (invSubLayer (s.slot k) b)) :=
    exec_isub_of_valid (s := s.setBlk b) h
  have hipermf (b : Block) : exec .ipermf (s.setBlk b) = .next (s.setBlk (invPermFirst s.p1 b)) := exec_ipermf _
  have hiperms (b : Block) : exec .iperms (s.setBlk b) = .next (s.setBlk (invPermSecond s.p2 b)) := exec_iperms _
  runCommands_of_layers (.cons hisub (.cons hiperms (.cons hisub (.cons hipermf (.cons hisub .nil))))) s.blk

/-- When no error is raised, ENC is its five single commands (R143). -/
theorem exec_enc_eq_runCommands {k : Slot} {s : State} (h : (s.slot k).valid = true) :
    exec (.enc k) s = runCommands [.sub k, .permf, .sub k, .perms, .sub k] s :=
  (exec_enc_of_valid h).trans (runCommands_encrypt_layers h).symm

/-- When no error is raised, DEC is its five single commands (R143). -/
theorem exec_dec_eq_runCommands {k : Slot} {s : State} (h : (s.slot k).valid = true) :
    exec (.dec k) s = runCommands [.isub k, .iperms, .isub k, .ipermf, .isub k] s :=
  (exec_dec_of_valid h).trans (runCommands_decrypt_layers h).symm

/-! ### Commands in between -/

/-- BLK is written only by a substitution, mixing or pipeline command (10_state.md R27). -/
theorem exec_blk {i : Instr} {s t : State} (h : exec i s = .next t) :
    t.blk = s.blk ∨ family i = .substitution ∨ family i = .mixing ∨ family i = .pipeline := by
  cases hc : commandError i s with
  | some c => rw [exec_of_error hc] at h; cases h; simp
  | none =>
    rcases exec_of_noError hc with ⟨_, e⟩ | ⟨_, e⟩ | ⟨_, r, e⟩ | ⟨hi, b, e⟩ | ⟨k, c, _, _, e⟩ <;>
      (rw [e] at h; cases h)
    case none.inr.inr.inr.inl.refl => exact .inr hi
    all_goals exact .inl rfl

/-- What a pipeline command on slot `k` looks at is the same in `s` and `t`. -/
def SameForPipeline (k : Slot) (s t : State) : Prop :=
  t.p1 = s.p1 ∧ t.p2 = s.p2 ∧ t.slot k = s.slot k ∧ t.blk = s.blk

theorem exec_sameForPipeline {i : Instr} {k : Slot} {s t : State} (hi : sparesBlockAndSlot k i = true)
    (h : exec i s = .next t) : SameForPipeline k s t := by
  obtain ⟨hp1, hp2, _⟩ := exec_frame h
  refine ⟨hp1, hp2, ?_, ?_⟩
  · refine (exec_slot h k).resolve_right fun ⟨hfamily, hk, _⟩ => ?_
    simp [sparesBlockAndSlot, hfamily, hk] at hi
  · refine (exec_blk h).resolve_right ?_
    rintro (hfamily | hfamily | hfamily) <;> simp [sparesBlockAndSlot, hfamily] at hi

theorem runCommands_sameForPipeline {is : List Instr} {k : Slot} (his : ∀ i ∈ is, sparesBlockAndSlot k i = true) (s : State) :
    ∃ t, runCommands is s = .next t ∧ SameForPipeline k s t := by
  induction is generalizing s with
  | nil => exact ⟨s, rfl, rfl, rfl, rfl, rfl⟩
  | cons i is ih =>
    obtain ⟨hi, hrest⟩ := List.forall_mem_cons.1 his
    obtain ⟨u, hu⟩ := exec_total i s
    obtain ⟨hp1, hp2, hslot, hblk⟩ := exec_sameForPipeline hi hu
    obtain ⟨t, ht, hp1', hp2', hslot', hblk'⟩ := ih hrest u
    exact ⟨t, (runCommands_cons_of_next hu is).trans ht, hp1'.trans hp1, hp2'.trans hp2, hslot'.trans hslot, hblk'.trans hblk⟩

theorem runCommands_append_of_next {is : List Instr} {s t : State} (h : runCommands is s = .next t) (js : List Instr) :
    runCommands (is ++ js) s = runCommands js t := by
  induction is generalizing s with
  | nil => cases h; rfl
  | cons i is ih =>
    obtain ⟨u, hu⟩ := exec_total i s
    rw [runCommands_cons_of_next hu] at h
    rw [List.cons_append, runCommands_cons_of_next hu, ih h]

/-- The command `i` puts BLK through `f` of P1, P2 and slot `k`, if that slot is committed, and does nothing else. -/
def AppliesPipeline (k : Slot) (i : Instr) (f : Byte → Byte → SlotState → Block → Block) : Prop :=
  ∀ s : State, (s.slot k).valid = true → exec i s = .next (s.setBlk (f s.p1 s.p2 (s.slot k) s.blk))

theorem enc_appliesPipeline (k : Slot) : AppliesPipeline k (.enc k) encrypt := fun _ => exec_enc_of_valid

theorem dec_appliesPipeline (k : Slot) : AppliesPipeline k (.dec k) decrypt := fun _ => exec_dec_of_valid

/-- A pipeline command, commands that spare BLK and the slot, and the command that undoes the first: BLK is back, and all else is as the
commands in between leave it (R144). -/
theorem runCommands_roundTrip {k : Slot} {i j : Instr} {f g : Byte → Byte → SlotState → Block → Block}
    (hi : AppliesPipeline k i f) (hj : AppliesPipeline k j g) {s : State} (hv : (s.slot k).valid = true)
    (hgf : ∀ b, g s.p1 s.p2 (s.slot k) (f s.p1 s.p2 (s.slot k) b) = b)
    {between : List Instr} (hbetween : ∀ c ∈ between, sparesBlockAndSlot k c = true) :
    ∃ t, runCommands between (s.setBlk (f s.p1 s.p2 (s.slot k) s.blk)) = .next t ∧
      runCommands ([i] ++ between ++ [j]) s = .next (t.setBlk s.blk) := by
  obtain ⟨t, ht, hp1, hp2, hslot, hblk⟩ := runCommands_sameForPipeline hbetween (s.setBlk (f s.p1 s.p2 (s.slot k) s.blk))
  have hundo : exec j t = .next (t.setBlk s.blk) := by
    rw [hj t (by rw [hslot, slot_setBlk, hv]), hp1, hp2, hslot, hblk, setBlk_p1, setBlk_p2, slot_setBlk, setBlk_blk, hgf]
  refine ⟨t, ht, ?_⟩
  calc runCommands ([i] ++ between ++ [j]) s
      = runCommands [j] t := runCommands_append_of_next ((runCommands_cons_of_next (hi s hv) between).trans ht) [j]
    _ = .next (t.setBlk s.blk) := runCommands_cons_of_next hundo []

/-- With nothing in between, the whole state is back. -/
theorem runCommands_roundTrip_pair {k : Slot} {i j : Instr} {f g : Byte → Byte → SlotState → Block → Block}
    (hi : AppliesPipeline k i f) (hj : AppliesPipeline k j g) {s : State} (hv : (s.slot k).valid = true)
    (hgf : ∀ b, g s.p1 s.p2 (s.slot k) (f s.p1 s.p2 (s.slot k) b) = b) : runCommands [i, j] s = .next s := by
  obtain ⟨t, ht, hrun⟩ := runCommands_roundTrip hi hj hv hgf (between := []) (by simp)
  cases ht
  exact hrun

end Sys2Proof.Machine
end

section
/-! PROOFS. The statements of 44_pipeline.md. -/

namespace Sys2Proof.Machine

open Sys2Proof.Claims

/-- Settles O35: the committed slot's layers in the order of R140; on an identity slot only the rounds are left. -/
theorem encRunsTheEncryptPipeline : Obligations.EncRunsTheEncryptPipeline := by
  intro k s
  refine ⟨encodingCard .enc 0 0 k rfl, exec_of_uncommitted rfl rfl, exec_enc_of_valid, fun hslot b hblk => ?_,
    fun hslot hp1 hp2 hblk => ?_⟩
  · obtain ⟨c, hc⟩ := encrypt_identitySlot_constantBlock s.p1 s.p2 b
    refine ⟨c, ?_⟩
    rw [exec_enc_of_valid (by rw [hslot, identitySlot]), hslot, hblk, hc]
    rfl
  · have hcipher : encrypt s.p1 s.p2 (s.slot .s0) s.blk = blockOfWords 0x1E480EE5 0x06F801B1 0x19CCA720 0x9094B240 := by
      rw [hslot, hp1, hp2, hblk, encrypt_identitySlot_textBlock]
    rw [exec_enc_of_valid (by rw [hslot, identitySlot]), hcipher]
    rfl

/-- Settles O36: the committed slot's inverse layers in the order of R140, as one command and as five. -/
theorem decRunsTheDecryptPipeline : Obligations.DecRunsTheDecryptPipeline := by
  intro k s
  refine ⟨encodingCard .dec 0 0 k rfl, exec_of_uncommitted rfl rfl,
    fun hv => ⟨exec_dec_of_valid hv, exec_dec_eq_runCommands hv⟩, fun hslot hp1 hp2 hblk => ?_⟩
  have htext : decrypt s.p1 s.p2 (s.slot .s0) s.blk = textBlock := by
    rw [hslot, hp1, hp2, hblk, decrypt_identitySlot_cipherBlock]
  rw [exec_dec_of_valid (by rw [hslot, identitySlot]), htext]
  rfl

/-- Settles O37: both sides put BLK through the same layers. -/
theorem pipelinesEqualTheirFiveCommands : Obligations.PipelinesEqualTheirFiveCommands :=
  fun _ _ hv => ⟨exec_enc_eq_runCommands hv, exec_dec_eq_runCommands hv, _, _, exec_enc_of_valid hv, exec_dec_of_valid hv⟩

/-- Settles O38: the commands in between leave P1, P2, the slot and BLK, so the second pipeline undoes the first (`decrypt_encrypt`,
`encrypt_decrypt`). -/
theorem encryptDecryptRoundTrip : Obligations.EncryptDecryptRoundTrip := by
  intro k s between hv hc hbetween
  have henc := enc_appliesPipeline k
  have hdec := dec_appliesPipeline k
  have hde := decrypt_encrypt hv hc s.p1 s.p2
  have hed := encrypt_decrypt hv hc s.p1 s.p2
  obtain ⟨t, _, ht⟩ := runCommands_roundTrip henc hdec hv hde hbetween
  obtain ⟨u, _, hu⟩ := runCommands_roundTrip hdec henc hv hed hbetween
  exact ⟨runCommands_roundTrip_pair henc hdec hv hde, runCommands_roundTrip_pair hdec henc hv hed,
    ⟨_, ht, rfl⟩, ⟨_, hu, rfl⟩⟩

end Sys2Proof.Machine
end

section
/-! PROOFS. What NOP and CLRERR do, and the words beside theirs (45_control.md). -/

namespace Sys2Proof.Machine

open Sys2Proof.Claims

/-- Where the mask of a command's row is all ones, every other word with the row's OPC is illegal (30_encoding.md R64). -/
theorem issueCommand_of_ne_of_fullMask {i : Instr} {m : Mnemonic} {w : Word} {line : AsmLine}
    (card : EncodingCard i w ⟨m, w, 0xFFFFFFFF, false⟩ line) {v : Word} (hopc : v.extractLsb' 0 8 = m.opc) (hne : v ≠ w)
    (s : State) : issueCommand v s = .next (reported 1 v s) := by
  obtain ⟨_, _, _, _, hillegal⟩ := card
  refine hillegal v s hopc ?_
  have hmask : v &&& 0xFFFFFFFF = v := BitVec.and_allOnes
  simpa only [CommandRow.selects, hmask, Bool.not_false, Bool.true_or, Bool.and_true] using beq_false_of_ne hne

theorem nop_encodingCard : EncodingCard .nop 0x00000000 ⟨.nop, 0x00000000, 0xFFFFFFFF, false⟩ (.command .nop []) :=
  encodingCard .nop 0 0 .s0 rfl

theorem clrerr_encodingCard :
    EncodingCard .clrerr 0x00000001 ⟨.clrerr, 0x00000001, 0xFFFFFFFF, false⟩ (.command .clrerr []) :=
  encodingCard .clrerr 0 0 .s0 rfl

theorem exec_nop (s : State) : exec .nop s = .next s := rfl

theorem exec_clrerr (s : State) : exec .clrerr s = .next (clearError s) := rfl

theorem clearError_of_clear {s : State} (herr : s.err = 0) (hcmd : s.errcmd = 0) : clearError s = s := by
  rw [clearError, ← herr, ← hcmd]

/-- Clearing the report undoes whatever an error wrote (60_exceptions.md R162, R167). -/
theorem clearError_raiseError (code : ErrCode) (cmd : Word) (s : State) :
    clearError (raiseError code cmd s) = clearError s := by
  rcases raiseError_cases code cmd s with ⟨_, h⟩ | ⟨_, h⟩ <;>
    simp only [h, clearError]

end Sys2Proof.Machine
end

section
/-! PROOFS. The statements of 45_control.md. -/

namespace Sys2Proof.Machine

open Sys2Proof.Claims

/-- Settles O6: the row of NOP masks every bit, so its OPC with any other word is illegal. -/
theorem nopChangesNothing : Obligations.NopChangesNothing :=
  ⟨nop_encodingCard, fun _ s hopc hne => issueCommand_of_ne_of_fullMask nop_encodingCard hopc hne s, exec_nop⟩

/-- Settles O7: CLRERR is `clearError`, which undoes the report of GINV 0 (`clearError_raiseError`). -/
theorem clrerrClearsTheReport : Obligations.ClrerrClearsTheReport := by
  refine ⟨clrerr_encodingCard, exec_clrerr, fun s herr hcmd => ?_, fun w s hopc hne => ⟨?_, ?_⟩, fun s herr hcmd => ⟨?_, ?_⟩⟩
  · rw [exec_clrerr, clearError_of_clear herr hcmd]
  · exact issueCommand_of_ne_of_fullMask clrerr_encodingCard hopc hne s
  · exact raiseError_err .illegalCmd w s
  · exact (exec_ginv_zero s).trans (congrArg _ (raiseError_of_clear .invZero _ herr))
  · calc runCommands [.ginv 0, .clrerr] s
        = .next (clearError (raiseError .invZero (encode (.ginv 0)) s)) :=
          runCommands_cons_of_next (exec_ginv_zero s) [.clrerr]
      _ = .next s := by rw [clearError_raiseError, clearError_of_clear herr hcmd]

end Sys2Proof.Machine
end

section
/-! PROOFS. The error report: the first failing check raises its code, a pending error stays, and no command looks at the report
(60_exceptions.md R162 to R164). -/

namespace Sys2Proof.Machine

open Sys2Proof.Claims

/-! ### Words and their checks -/

/-- A legal word whose command fails its own check raises that error in the word written (60_exceptions.md R162). -/
theorem issueCommand_of_error {w : Word} {i : Instr} {s : State} {c : ErrCode} (hw : decode w = some i)
    (hc : commandError i s = some c) : issueCommand w s = .next (raiseError c w s) := by
  rw [issueCommand_of_decode hw, exec_of_error hc, encode_of_decode hw]

theorem raiseError_err_ne_zero (code : ErrCode) (cmd : Word) (s : State) : (raiseError code cmd s).err ≠ 0 := by
  rcases raiseError_cases code cmd s with ⟨_, h⟩ | ⟨hs, h⟩
  · rw [h]; exact errCode_code_ne_zero code
  · rwa [h]

/-- Only CLRERR writes the report without failing its check (60_exceptions.md R162, R167). -/
theorem exec_keeps_report_of_noError {i : Instr} {s t : State} (hc : commandError i s = none) (h : exec i s = .next t)
    (hi : i ≠ .clrerr) : t.err = s.err ∧ t.errcmd = s.errcmd :=
  (exec_report_of_noError hc h).resolve_left fun ⟨hclrerr, _⟩ => hi hclrerr

/-- A pending error is kept by every command but CLRERR (60_exceptions.md R163, R167). -/
theorem exec_keeps_pending_report {i : Instr} {s t : State} (h : exec i s = .next t) (hs : s.err ≠ 0) (hi : i ≠ .clrerr) :
    t.err = s.err ∧ t.errcmd = s.errcmd := by
  cases hc : commandError i s with
  | some c =>
    rw [exec_of_error hc, raiseError_of_set c _ hs] at h
    cases h
    exact ⟨rfl, rfl⟩
  | none => exact exec_keeps_report_of_noError hc h hi

/-! ### States that differ in the report alone -/

/-- `t` is `s` but for what the error report holds. -/
def SameButReport (s t : State) : Prop :=
  { t with err := s.err, errcmd := s.errcmd } = s

@[simp] theorem slot_withReport (s : State) (e : BitVec 4) (w : Word) (k : Slot) :
    ({ s with err := e, errcmd := w } : State).slot k = s.slot k := rfl

/-- Raising an error writes nothing but the report, whatever the report holds (60_exceptions.md R162). -/
theorem raiseError_sameButReport (code : ErrCode) (cmd : Word) (s : State) (e : BitVec 4) (w : Word) :
    SameButReport (raiseError code cmd s) (raiseError code cmd { s with err := e, errcmd := w }) := by
  rcases raiseError_cases code cmd s with ⟨_, h⟩ | ⟨_, h⟩ <;>
    rcases raiseError_cases code cmd { s with err := e, errcmd := w } with ⟨_, h'⟩ | ⟨_, h'⟩ <;>
      rw [SameButReport, h, h']

/-- The check for a committed slot does not look at the report (60_exceptions.md R160). -/
theorem withCommitted_sameButReport (k : Slot) (cmd : Word) (s : State) (e : BitVec 4) (w : Word)
    {f f' : SlotState → State} (hf : ∀ c, SameButReport (f c) (f' c)) :
    SameButReport (withCommitted k cmd s f) (withCommitted k cmd { s with err := e, errcmd := w } f') := by
  cases hv : (s.slot k).valid with
  | true =>
    rw [withCommitted_of_valid cmd f hv, withCommitted_of_valid cmd f' (by rwa [slot_withReport]), slot_withReport]
    exact hf (s.slot k)
  | false =>
    rw [withCommitted_of_invalid cmd f hv, withCommitted_of_invalid cmd f' (by rwa [slot_withReport])]
    exact raiseError_sameButReport .tableInvalid cmd s e w

/-- No command looks at the report (10_state.md R32): where a check may fail, it fails alike; every other update is that of its own field. -/
theorem exec_sameButReport (i : Instr) (s : State) (e : BitVec 4) (w : Word) :
    ∃ t t' : State, exec i s = .next t ∧ exec i { s with err := e, errcmd := w } = .next t' ∧ SameButReport t t' := by
  cases i
  case ginv a =>
    refine ⟨_, _, rfl, rfl, ?_⟩
    cases gfInv a with
    | some r => rfl
    | none => exact raiseError_sameButReport .invZero _ s e w
  case tcommit k =>
    by_cases hbij : IsBijection (s.slot k).t
    · obtain ⟨d, hd, _⟩ := commitSlot_of_isBijection hbij
      exact ⟨_, _, exec_tcommit_of_commitSlot hd, exec_tcommit_of_commitSlot hd, rfl⟩
    · exact ⟨_, _, exec_tcommit_of_not_isBijection hbij, exec_tcommit_of_not_isBijection hbij,
        raiseError_sameButReport .notBijective _ s e w⟩
  case sub k | isub k | enc k | dec k | tird k _ =>
    exact ⟨_, _, rfl, rfl, withCommitted_sameButReport k _ s e w fun _ => rfl⟩
  all_goals exact ⟨_, _, rfl, rfl, rfl⟩

/-! ### Words in a row -/

theorem runWords_cons_of_next {w : Word} {s t : State} (h : issueCommand w s = .next t) (ws : List Word) :
    runWords (w :: ws) s = runWords ws t := by
  simp only [runWords, h]

theorem runWords_append_of_next {ws : List Word} {s t : State} (h : runWords ws s = .next t) (vs : List Word) :
    runWords (ws ++ vs) s = runWords vs t := by
  induction ws generalizing s with
  | nil => cases h; rfl
  | cons w ws ih =>
    obtain ⟨u, hu, _⟩ := issueCommand_total w s
    rw [runWords_cons_of_next hu] at h
    rw [List.cons_append, runWords_cons_of_next hu, ih h]

/-- A word other than CLRERR's that leaves the report clear found it clear and raised no error (60_exceptions.md R162). -/
theorem noError_of_issueCommand {w : Word} {s t : State} (hw : decode w ≠ some .clrerr) (h : issueCommand w s = .next t)
    (ht : t.NoError) : s.NoError ∧ ∃ i, decode w = some i ∧ commandError i s = none := by
  rcases issueCommand_cases h with ⟨c, _, rfl⟩ | ⟨i, hi, hc, he⟩
  · exact absurd ht (raiseError_err_ne_zero c w s)
  · obtain ⟨herr, _⟩ := exec_keeps_report_of_noError hc he fun hclrerr => hw (hclrerr ▸ hi)
    exact ⟨herr.symm.trans ht, i, hi, hc⟩

theorem noError_of_runWords {ws : List Word} {s t : State} (hws : ∀ v ∈ ws, decode v ≠ some .clrerr)
    (h : runWords ws s = .next t) (ht : t.NoError) : s.NoError := by
  induction ws generalizing s with
  | nil => cases h; exact ht
  | cons w ws ih =>
    obtain ⟨hw, hrest⟩ := List.forall_mem_cons.1 hws
    obtain ⟨u, hu, _⟩ := issueCommand_total w s
    rw [runWords_cons_of_next hu] at h
    exact (noError_of_issueCommand hw hu (ih hrest h)).1

end Sys2Proof.Machine
end

section
/-! PROOFS. The statements of 60_exceptions.md. -/

namespace Sys2Proof.Machine

open Sys2Proof.Claims

/-- Settles O39: decode comes first, then the command's own check, and both report through `raiseError`. -/
theorem errorsArePreciseAndFirstIsKept : Obligations.ErrorsArePreciseAndFirstIsKept := by
  refine ⟨rfl, rfl, rfl, rfl, fun w s => ⟨fun hw => ?_, fun i c hw hc => ?_, fun i hw hc => ?_⟩⟩
  · exact issueCommand_of_illegal hw s
  · exact issueCommand_of_error hw hc
  · obtain ⟨t, ht⟩ := exec_total i s
    exact ⟨t, (issueCommand_of_decode hw s).trans ht, exec_keeps_report_of_noError hc ht⟩

/-- Settles O40: the two runs agree but for the report (`exec_sameButReport`), and a pending report stays. -/
theorem commandsIgnoreTheErrorReport : Obligations.CommandsIgnoreTheErrorReport := by
  intro i s e w
  obtain ⟨t, t', ht, ht', hsame⟩ := exec_sameButReport i s e w
  exact ⟨t, t', ht, ht', hsame, exec_keeps_pending_report ht⟩

/-- Settles O41: a clear report is traced back from the end, first through `after`, then through `w`, then through `before`. -/
theorem clearReportAtTheEndMeansNoErrorRaised : Obligations.ClearReportAtTheEndMeansNoErrorRaised := by
  intro before after w s t u hwords hrun ht hu
  obtain ⟨hbefore, hrest⟩ := List.forall_mem_append.1 hwords
  obtain ⟨hw, hafter⟩ := List.forall_mem_cons.1 hrest
  obtain ⟨v, hv, _⟩ := issueCommand_total w u
  rw [runWords_append_of_next hu, runWords_cons_of_next hv] at hrun
  obtain ⟨huNoError, hcheck⟩ := noError_of_issueCommand hw hv (noError_of_runWords hafter hrun ht)
  exact ⟨noError_of_runWords hbefore hu huNoError, huNoError, hcheck⟩

end Sys2Proof.Machine
end

section
/-! PROOFS. What the reset line, a loss of power and an access that must wait for a reset do (70_reset_and_hazards.md R180,
60_exceptions.md R174). -/

namespace Sys2Proof.Machine

open Sys2Proof.Claims

variable {s : State} {rest : List Event}

theorem step_assertReset (he : s.events = .resetLine true :: rest) :
    step s = .next { s with phase := .inReset, events := rest } := by
  rw [step_event he]; rfl

/-- The end of a reset leaves a running block with the reset values and the same synthesis parameters (70_reset_and_hazards.md R180). -/
theorem step_of_endsReset (h : endsReset s) :
    ∃ u : State, step s = .next u ∧ u.phase = .running ∧ u.p1 = s.p1 ∧ u.p2 = s.p2 ∧ u.HoldsResetValues := by
  obtain ⟨hp, rest, he⟩ := h
  have hstep : step s = .next (releaseReset { s with events := rest }) := by
    simp [step_event he, handleEvent, setResetLine, hp]
  exact ⟨_, hstep, rfl, rfl, rfl, releaseReset_holdsResetValues _⟩

theorem step_releaseReset_of_running (hp : s.phase = .running) (he : s.events = .resetLine false :: rest) :
    step s = .next { s with events := rest } := by
  simp [step_event he, handleEvent, setResetLine, hp]

theorem step_powerLoss (he : s.events = .powerLoss :: rest) : step s = .next (losePower { s with events := rest }) :=
  step_event he

theorem step_access_inReset (hp : s.phase = .inReset) {a : Access} (he : s.events = .access a :: rest) :
    step s = .refused .accessDuringReset := by
  simp [step_event he, handleEvent, hp]

theorem step_access_powerLost (hp : s.phase = .powerLost) {a : Access} (he : s.events = .access a :: rest) :
    step s = .refused .accessBeforeReset := by
  simp [step_event he, handleEvent, hp]

theorem afterPowerLoss_eq_ite (p : Phase) : p.afterPowerLoss = if p = .inReset then .inReset else .powerLost := by
  cases p <;> rfl

/-- Only a reset makes the block run again after a loss of power (60_exceptions.md R174). -/
theorem step_powerLost_not_running {t : State} (hp : s.phase = .powerLost) (h : step s = .next t) : t.phase ≠ .running := by
  intro ht
  rcases step_to_running h ht with ⟨hreset, _⟩ | ⟨hrunning, _⟩
  · exact nomatch hp.symm.trans hreset
  · exact nomatch hp.symm.trans hrunning

end Sys2Proof.Machine
end

section
/-! PROOFS. The checks that a command's needs decide (60_exceptions.md R160), and the range of P1 and P2 (00_scope.md R6). -/

namespace Sys2Proof.Machine

open Sys2Proof.Claims

/-- The check of a command that needs a committed slot is that of the slot it names. -/
theorem commandError_of_needsCommitted {i : Instr} (hi : needsCommitted i = true) :
    ∃ k, slotOperand i = some k ∧ ∀ s, commandError i s = tableCheck k s := by
  cases i <;> cases hi <;> exact ⟨_, rfl, fun _ => rfl⟩

theorem tableCheck_of_uncommitted {k : Slot} {s : State} (hv : (s.slot k).valid = false) :
    tableCheck k s = some .tableInvalid := by
  simp [tableCheck, hv]

/-- The field and the mixing commands need no table, and only GINV 0 among them has a check that fails (60_exceptions.md R160). -/
theorem commandError_eq_none_of_field_or_mixing {i : Instr} (hf : family i = .field ∨ family i = .mixing) (hi : i ≠ .ginv 0)
    (s : State) : commandError i s = none := by
  refine Option.eq_none_iff_forall_ne_some.2 fun c hc => ?_
  rcases commandError_cases hc with ⟨_, hginv⟩ | ⟨_, hneeds⟩ | ⟨_, k, rfl⟩
  · exact hi hginv
  · cases i <;> cases hneeds <;> simp [family] at hf
  · simp [family] at hf

/-- A command whose check passes leaves a clear report clear (60_exceptions.md R162). -/
theorem exec_err_eq_zero_of_noError {i : Instr} {s t : State} (hc : commandError i s = none) (h : exec i s = .next t)
    (hs : s.err = 0) : t.err = 0 := by
  rcases exec_report_of_noError hc h with ⟨_, rfl⟩ | ⟨herr, _⟩
  · rfl
  · rw [herr, hs]

/-- A synthesis parameter is its predecessor plus 1, and so 1..255 (00_scope.md R6). -/
theorem byte_ofNat_succ_ne_zero (n : Fin 255) : BitVec.ofNat 8 (n.val + 1) ≠ 0#8 := by
  have := n.isLt
  bv_omega

end Sys2Proof.Machine
end

section
/-! PROOFS. The statements of 70_reset_and_hazards.md. -/

namespace Sys2Proof.Machine

open Sys2Proof.Claims

/-- Settles O56: no slot is committed, so none has a promise to keep, and the report is clear. -/
theorem resetMeetsTheInvariants : Obligations.ResetMeetsTheInvariants :=
  ⟨fun k => coherent_of_not_valid (slot_reset_valid k), slot_reset_valid, .inl ⟨rfl, rfl⟩,
    byte_ofNat_succ_ne_zero Config.p1Pred, byte_ofNat_succ_ne_zero Config.p2Pred⟩

/-- Settles O58: each event in each phase has its own step lemma; power lost in reset leaves the block there, and the release that follows
gives the reset values. -/
theorem resetAndPowerLossHoldOffAccesses : Obligations.ResetAndPowerLossHoldOffAccesses := by
  intro s rest
  refine ⟨step_assertReset, fun hp a => step_access_inReset hp, ?release, step_releaseReset_of_running, ?powerLoss, ?powerLossInReset,
    fun hp a => step_access_powerLost hp, fun hp t => step_powerLost_not_running hp⟩
  case release =>
    intro hends
    obtain ⟨u, hu, hphase, hp1, hp2, _⟩ := step_of_endsReset hends
    exact ⟨u, hu, hp1, hp2, hphase⟩
  case powerLoss =>
    intro he
    exact ⟨_, step_powerLoss he, rfl, rfl, rfl, rfl, afterPowerLoss_eq_ite s.phase⟩
  case powerLossInReset =>
    rintro rest' hp rfl he
    have hends : endsReset (losePower { s with events := .resetLine false :: rest' }) :=
      ⟨by simp [hp, Phase.afterPowerLoss], rest', rfl⟩
    obtain ⟨u, hu, hphase, _, _, hreset⟩ := step_of_endsReset hends
    exact ⟨_, u, step_powerLoss he, hends, hu, hphase, hreset.err, hreset.errcmd, hreset.res, fun i => by simp [hreset.blk],
      hreset.valid⟩

/-- Settles O59: after reset no slot is committed, and only TIDENT and TCOMMIT commit one (`runCommands_keeps_uncommitted`). -/
theorem afterResetOnlyLoadedSlotsWork : Obligations.AfterResetOnlyLoadedSlotsWork := by
  intro s hs
  have hreset : s.HoldsResetValues := by
    rcases hs with rfl | ⟨u, rfl⟩
    · exact reset_holdsResetValues
    · exact releaseReset_holdsResetValues u
  refine ⟨fun i hneeds => ?_, fun i hf hi => ?_, fun is t k i his ht hneeds hk => ?_⟩
  · obtain ⟨k, _, hcheck⟩ := commandError_of_needsCommitted hneeds
    have herror := (hcheck s).trans (tableCheck_of_uncommitted (hreset.valid k))
    rw [exec_of_error herror, raiseError_of_clear _ _ hreset.err]
    rfl
  · obtain ⟨t, ht⟩ := exec_total i s
    have hcheck := commandError_eq_none_of_field_or_mixing hf hi s
    exact ⟨t, ht, exec_err_eq_zero_of_noError hcheck ht hreset.err, hcheck⟩
  · obtain ⟨j, hj, hcheck⟩ := commandError_of_needsCommitted hneeds
    obtain rfl : j = k := Option.some.inj (hj.symm.trans hk)
    exact (hcheck t).trans (tableCheck_of_uncommitted (runCommands_keeps_uncommitted his ht (hreset.valid j)))

end Sys2Proof.Machine
end
